-- ==== Sys2Proof/Word.lean ====
section
/-! DEFINITION. The widths of KSE's data: the 32-bit register and command word, the byte, the 64-bit lane. -/

namespace Sys2Proof

/-- A 32-bit CSR register or command word (10_state.md R39, 30_encoding.md R70). -/
abbrev Word := BitVec 32

/-- A byte of S, IN or OUT, and the width of R, SFX and BLK (00_scope.md R13). -/
abbrev Byte := BitVec 8

/-- A lane of the state: an unsigned 64-bit integer (10_state.md R22). -/
abbrev Lane := BitVec 64

end Sys2Proof
end

