-- ==== Sys2Proof/Config.lean ====
section
/-! DEFINITION. What an implementation of KSE fixes (the two open buffer sizes) and the free values
(buffer bytes that nothing has written since reset). -/

namespace Sys2Proof.Config

/-- The open parameters of 00_scope.md R10: the capacities of the two buffers in bytes. -/
structure Params where
  inBytes  : Nat
  outBytes : Nat
deriving DecidableEq, Repr

/-- R10: each capacity is an integer of 0 to 2^32 - 1. -/
def Params.legal (p : Params) : Bool :=
  decide (p.inBytes ≤ 4294967295) && decide (p.outBytes ≤ 4294967295)

/-- The parameters State.reset takes. DESIGN CHOICE (log entry 3, unsafe for a claim that rests on the
two numbers): the spec leaves them open. 95_test_vectors.md V82 uses these values. -/
def resetParams : Params where
  inBytes := 1048576
  outBytes := 4096

/-- The free value of an IN byte not written since reset, for the number of RESET events so far and
the offset (10_state.md R35, R44). It has no body: nothing can be proved of its values. -/
opaque freeInByte : Nat → Nat → Byte

/-- The free value of an OUT byte not written since reset (10_state.md R36, R44). No body. -/
opaque freeOutByte : Nat → Nat → Byte

end Sys2Proof.Config
end

