-- ==== Sys2Proof/Syntax.lean ====
section
/-! DEFINITION. The 18 commands of the opcode table, the host's transactions and events, and the
assembler lines of host programs. -/

namespace Sys2Proof

/-- The 18 commands (30_encoding.md R73). No command has an operand field (R72). -/
inductive Instr where
  | pinit
  | theta
  | rhopi
  | chi
  | iota
  | round
  | f1600
  | init
  | absorb
  | pad
  | squeeze
  | keccak
  | sha3_224
  | sha3_256
  | sha3_384
  | sha3_512
  | shake128
  | shake256
deriving DecidableEq, Repr

/-- The eleven registers of the CSR space (10_state.md R39). -/
inductive Csr where
  | cmd
  | status
  | rate
  | cap
  | sfx
  | inlen
  | outlen
  | blk
  | iptr
  | optr
  | perm
deriving DecidableEq, Repr

/-- The three byte-addressed spaces (20_memory.md R50). -/
inductive Space where
  | stateBytes
  | input
  | output
deriving DecidableEq, Repr

/-- A host transaction: a kind, the space (always CSR for RD and WR), the access width in bits, the
offset and, for a write, the data (30_encoding.md R80, 43_host_access.md R180). -/
inductive Transaction where
  | rd (width offset : Nat)
  | wr (width offset : Nat) (value : Word)
  | rdb (space : Space) (width offset : Nat)
  | wrb (space : Space) (width offset : Nat) (value : Byte)
deriving DecidableEq, Repr

/-- The two responses to a transaction, OK (with the data of a read) and REFUSED (43_host_access.md R180). -/
inductive Response where
  | ok
  | okWord (value : Word)
  | okByte (value : Byte)
  | refused
deriving DecidableEq, Repr

/-- What reaches KSE from outside: a transaction, a RESET event between two transactions, or a RESET
event that cuts a transaction short (70_reset_and_hazards.md R230). -/
inductive HostEvent where
  | transaction (t : Transaction)
  | reset
  | resetDuring (t : Transaction)
deriving DecidableEq, Repr

/-- One line of a host program: a transaction written with a register's name, a mnemonic alone, or one
of the pseudo-instructions (30_encoding.md R77, R78). -/
inductive AsmLine where
  | wr (reg : Csr) (value : Word)
  | rd (reg : Csr)
  | wrb (space : Space) (offset : Nat) (value : Byte)
  | rdb (space : Space) (offset : Nat)
  | command (i : Instr)
  | loadIn (bytes : List Byte)
  | loadS (bytes : List Byte)
  | readOut (count : Nat)
  | readS
deriving DecidableEq, Repr

end Sys2Proof
end

