-- ==== Sys2Proof/WellFormed.lean ====
section
/-! DEFINITION. Which commands and transactions are well formed, in terms of the text of the host
program alone: nothing here reads the state of the machine. -/

namespace Sys2Proof

/-- A command has no operand that could be out of range (30_encoding.md R72): each is well formed. -/
def Instr.wf : Instr → Bool
  | .pinit | .theta | .rhopi | .chi | .iota | .round | .f1600 => true
  | .init | .absorb | .pad | .squeeze | .keccak => true
  | .sha3_224 | .sha3_256 | .sha3_384 | .sha3_512 | .shake128 | .shake256 => true

/-- Size in bytes of a byte-addressed space (20_memory.md R50). -/
abbrev Space.bytes (p : Config.Params) : Space → Nat
  | .stateBytes => 200
  | .input => p.inBytes
  | .output => p.outBytes

/-- A transaction is well formed when no clause of 43_host_access.md R184 but the write lock (f)
refuses it: 32-bit CSR accesses at the offsets of the map, writes to writable registers only,
8-bit buffer accesses below the space's size, no write to OUT. -/
def Transaction.wf (p : Config.Params) : Transaction → Bool
  | .rd width offset => width == 32 && offset % 4 == 0 && offset ≤ 0x28
  | .wr width offset _ => width == 32 && [0x00, 0x08, 0x0C, 0x10, 0x14, 0x18].contains offset
  | .rdb space width offset => width == 8 && offset < space.bytes p
  | .wrb space width offset _ => width == 8 && space != .output && offset < space.bytes p

/-- An event of the host is well formed when its transaction is. -/
def HostEvent.wf (p : Config.Params) : HostEvent → Bool
  | .transaction t => t.wf p
  | .reset => true
  | .resetDuring t => t.wf p

end Sys2Proof
end

