-- ==== Sys2Proof/Decode.lean ====
section
/-! DEFINITION. The decoder of command words and of CSR offsets, total and rejecting by name; the
encoder written from the opcode map; the expansion of assembler lines into host events. -/

namespace Sys2Proof

/-- Why a word is no command. Each raises ERR_CMD (30_encoding.md R74); the names are the model's
(log entry 12). -/
inductive Illegal where
  /-- Bits [31:8] are not 0. -/
  | zeroFieldSet
  /-- GRP is 0 or 4 to 15. -/
  | noSuchGroup
  /-- GRP is 1, 2 or 3 and FN is above the group's last function. -/
  | noSuchFunction
deriving DecidableEq, Repr

/-- The field ZERO, bits [31:8] (30_encoding.md R70). -/
def zeroField (w : Word) : BitVec 24 := w.extractLsb' 8 24

/-- The field GRP, bits [7:4] (30_encoding.md R70). -/
def grpField (w : Word) : BitVec 4 := w.extractLsb' 4 4

/-- The field FN, bits [3:0] (30_encoding.md R70). -/
def fnField (w : Word) : BitVec 4 := w.extractLsb' 0 4

/-- Group 1, the permutation core: FN 0 to 6 (30_encoding.md R73). -/
def decodePermutation (fn : Nat) : Except Illegal Instr :=
  match fn with
  | 0 => .ok .pinit
  | 1 => .ok .theta
  | 2 => .ok .rhopi
  | 3 => .ok .chi
  | 4 => .ok .iota
  | 5 => .ok .round
  | 6 => .ok .f1600
  | _ => .error .noSuchFunction

/-- Group 2, the sponge: FN 0 to 4 (30_encoding.md R73). -/
def decodeSponge (fn : Nat) : Except Illegal Instr :=
  match fn with
  | 0 => .ok .init
  | 1 => .ok .absorb
  | 2 => .ok .pad
  | 3 => .ok .squeeze
  | 4 => .ok .keccak
  | _ => .error .noSuchFunction

/-- Group 3, the wrappers: FN 0 to 5 (30_encoding.md R73). -/
def decodeWrapper (fn : Nat) : Except Illegal Instr :=
  match fn with
  | 0 => .ok .sha3_224
  | 1 => .ok .sha3_256
  | 2 => .ok .sha3_384
  | 3 => .ok .sha3_512
  | 4 => .ok .shake128
  | 5 => .ok .shake256
  | _ => .error .noSuchFunction

/-- The group GRP and the function FN of a word whose ZERO field is 0 (30_encoding.md R79). -/
def decodeGroup (grp fn : Nat) : Except Illegal Instr :=
  match grp with
  | 1 => decodePermutation fn
  | 2 => decodeSponge fn
  | 3 => decodeWrapper fn
  | _ => .error .noSuchGroup

/-- The decoding procedure of 30_encoding.md R79. -/
def decode (w : Word) : Except Illegal Instr :=
  if zeroField w ≠ 0 then .error .zeroFieldSet
  else decodeGroup (grpField w).toNat (fnField w).toNat

/-- The group and function of a command (the columns GRP and FN of 30_encoding.md R73). -/
def Instr.grpFn : Instr → BitVec 4 × BitVec 4
  | .pinit => (1, 0)
  | .theta => (1, 1)
  | .rhopi => (1, 2)
  | .chi => (1, 3)
  | .iota => (1, 4)
  | .round => (1, 5)
  | .f1600 => (1, 6)
  | .init => (2, 0)
  | .absorb => (2, 1)
  | .pad => (2, 2)
  | .squeeze => (2, 3)
  | .keccak => (2, 4)
  | .sha3_224 => (3, 0)
  | .sha3_256 => (3, 1)
  | .sha3_384 => (3, 2)
  | .sha3_512 => (3, 3)
  | .shake128 => (3, 4)
  | .shake256 => (3, 5)

/-- The word of a command: ZERO, GRP, FN put together as in format C (30_encoding.md R70). -/
def encode (i : Instr) : Word := (0#24 ++ i.grpFn.1) ++ i.grpFn.2

/-- The command word that the low nbits bits of the number w stand for, the bits above being 0. A
command word is transferred as a number (20_memory.md R54; log entry 12). -/
def tableWord (nbits w : Nat) : Word := BitVec.ofNat 32 (w % 2 ^ nbits)

/-- The instruction the decoder reads from a word numbered as spec/opcode_table.json numbers it. -/
def decodeTableWord (nbits w : Nat) : Option Instr :=
  match decode (tableWord nbits w) with
  | .ok i => some i
  | .error _ => none

/-- The register at an offset of the CSR space, none where nothing is mapped (10_state.md R39). -/
def Csr.ofOffset (offset : Nat) : Option Csr :=
  match offset with
  | 0x00 => some .cmd
  | 0x04 => some .status
  | 0x08 => some .rate
  | 0x0C => some .cap
  | 0x10 => some .sfx
  | 0x14 => some .inlen
  | 0x18 => some .outlen
  | 0x1C => some .blk
  | 0x20 => some .iptr
  | 0x24 => some .optr
  | 0x28 => some .perm
  | _ => none

/-- The offset of a register (10_state.md R39). -/
def Csr.offset : Csr → Nat
  | .cmd => 0x00
  | .status => 0x04
  | .rate => 0x08
  | .cap => 0x0C
  | .sfx => 0x10
  | .inlen => 0x14
  | .outlen => 0x18
  | .blk => 0x1C
  | .iptr => 0x20
  | .optr => 0x24
  | .perm => 0x28

/-- A CSR write as the host issues it: 32 bits wide, at the register's offset. -/
def writeReg (reg : Csr) (value : Word) : HostEvent := .transaction (.wr 32 reg.offset value)

/-- The event that issues a command: WR CMD with its word (30_encoding.md R78(a)). -/
def issue (i : Instr) : HostEvent := writeReg .cmd (encode i)

/-- WRB at offsets from, from + 1, ... for the bytes given. -/
def writeBytesFrom (space : Space) (start : Nat) : List Byte → List HostEvent
  | [] => []
  | b :: bs => .transaction (.wrb space 8 start b) :: writeBytesFrom space (start + 1) bs

/-- RDB at offsets 0 to count - 1. -/
def readBytes (space : Space) (count : Nat) : List HostEvent :=
  (List.range count).map fun i => .transaction (.rdb space 8 i)

/-- The transactions a line of a host program stands for (30_encoding.md R77, R78; log entry 14). -/
def AsmLine.events : AsmLine → List HostEvent
  | .wr reg value => [writeReg reg value]
  | .rd reg => [.transaction (.rd 32 reg.offset)]
  | .wrb space offset value => [.transaction (.wrb space 8 offset value)]
  | .rdb space offset => [.transaction (.rdb space 8 offset)]
  | .command i => [issue i]
  | .loadIn bytes =>
    writeBytesFrom .input 0 bytes ++ [writeReg .inlen (BitVec.ofNat 32 bytes.length)]
  | .loadS bytes => writeBytesFrom .stateBytes 0 bytes
  | .readOut count => readBytes .output count
  | .readS => readBytes .stateBytes 200

end Sys2Proof
end

