-- ==== Sys2Proof/Machine/State.lean ====
section
/-! DEFINITION. The state of KSE as plain data, its value after reset, and the reasons a step could stop. -/

namespace Sys2Proof.Machine

/-- Five values of one kind, numbered 0 to 4: a row of the lane matrix, or theta's C and D. -/
structure Five (α : Type) where
  x0 : α
  x1 : α
  x2 : α
  x3 : α
  x4 : α
deriving DecidableEq, Repr

/-- The state S as its 25 lanes: five rows y, each of five lanes x (10_state.md R21 to R24). -/
abbrev Lanes := Five (Five Lane)

/-- The all-zero state S. -/
def Lanes.zero : Lanes :=
  let row : Five Lane := { x0 := 0, x1 := 0, x2 := 0, x3 := 0, x4 := 0 }
  { x0 := row, x1 := row, x2 := row, x3 := row, x4 := row }

/-- A buffer (IN or OUT): the bytes written since reset, as offset and byte, offsets strictly rising.
An unlisted offset holds no value of its own: it reads as a free value (log entry 4). -/
abbrev Memory := List Host.Cell

/-- PHASE (10_state.md R37). The encodings 5 to 7 never occur and have no constructor. -/
inductive Phase where
  | idle
  | absorb
  | squeeze
  | done
  | error
deriving DecidableEq, Repr

/-- ERRCODE (10_state.md R38, 60_exceptions.md R201). The encodings 6 and 7 never occur. -/
inductive ErrCode where
  | none
  | param
  | len
  | inlen
  | cmd
  | seq
deriving DecidableEq, Repr

/-- The reasons KSE stops: there are none. Every command ends and every state accepts a next one
(93_implementation_defined.md part 1; log entry 13, safe). An error of a command is a next state. -/
inductive Fault where
deriving DecidableEq, Repr

/-- The model's refusals. -/
inductive Refusal where
  /-- Raised by exec for a command that has no meaning yet; safe. No command is in that case. -/
  | notModelled (mnemonic : String)
deriving DecidableEq, Repr

/-- The state of KSE: the registers and buffers of 10_state.md R21 to R38, then the model's own fields. -/
structure State where
  /-- S, R21 to R24. -/
  lanes : Lanes
  /-- R, the LFSR register, R25. -/
  r : Byte
  /-- RND, the round counter, R26. -/
  rnd : BitVec 5
  /-- RATE, R28. -/
  rate : Word
  /-- CAP, R29. -/
  cap : Word
  /-- SFX, R30. -/
  sfx : Byte
  /-- INLEN, R31. -/
  inlen : Word
  /-- OUTLEN, R32. -/
  outlen : Word
  /-- IPTR, R33. -/
  iptr : Word
  /-- OPTR, R33. -/
  optr : Word
  /-- BLK, R34. -/
  blk : Byte
  /-- IN, R35. -/
  inBuf : Memory
  /-- OUT, R36. -/
  outBuf : Memory
  /-- PHASE, R37. -/
  phase : Phase
  /-- ERRCODE, R38. -/
  errcode : ErrCode
  /-- IN_BYTES and OUT_BYTES, 00_scope.md R10; no step changes them (log entry 3). -/
  params : Config.Params
  /-- The number of RESET events so far; the free bytes depend on it (log entry 4). -/
  epoch : Nat
  /-- The host's events not yet performed, oldest first (log entry 1). -/
  pending : List HostEvent
  /-- What the host got back from its last transaction (log entry 2). -/
  response : Option Response
deriving DecidableEq, Repr

/-- The reset values of 10_state.md R42, for any buffer sizes: every register 0 but R = 0x01, S zero,
PHASE IDLE, ERRCODE NONE, no byte of IN or OUT written. The model's own fields: no event pending, no
response, epoch 0 (log entries 1, 2, 4). -/
def State.resetWith (p : Config.Params) : State where
  lanes := Lanes.zero
  r := 0x01
  rnd := 0
  rate := 0
  cap := 0
  sfx := 0x00
  inlen := 0
  outlen := 0
  iptr := 0
  optr := 0
  blk := 0
  inBuf := []
  outBuf := []
  phase := .idle
  errcode := .none
  params := p
  epoch := 0
  pending := []
  response := Option.none

/-- The machine right after reset, with the buffer sizes of Config.resetParams (log entry 3). -/
def State.reset : State := State.resetWith Config.resetParams

end Sys2Proof.Machine
end

