-- ==== Sys2Proof/Machine/Ops.lean ====
section
/-! DEFINITION. The named operations over the lanes, the bytes of S, the two buffers and the phase:
every meaning reads and writes the state through them. Error entry and its exit stand side by side. -/

namespace Sys2Proof.Machine

/-! ## The five-by-five matrix -/

/-- Entry i of five. -/
def Five.get {α : Type} (v : Five α) (i : Fin 5) : α :=
  match i with
  | 0 => v.x0
  | 1 => v.x1
  | 2 => v.x2
  | 3 => v.x3
  | 4 => v.x4

/-- Five with entry i replaced. -/
def Five.set {α : Type} (v : Five α) (i : Fin 5) (a : α) : Five α :=
  match i with
  | 0 => { v with x0 := a }
  | 1 => { v with x1 := a }
  | 2 => { v with x2 := a }
  | 3 => { v with x3 := a }
  | 4 => { v with x4 := a }

/-- The five values of a function. -/
def Five.ofFn {α : Type} (f : Fin 5 → α) : Five α where
  x0 := f 0
  x1 := f 1
  x2 := f 2
  x3 := f 3
  x4 := f 4

/-- lane(x,y) (10_state.md R22). -/
def Lanes.lane (L : Lanes) (x y : Fin 5) : Lane := (L.get y).get x

/-- lane(x,y) <- v. -/
def Lanes.setLane (L : Lanes) (x y : Fin 5) (v : Lane) : Lanes := L.set y ((L.get y).set x v)

/-- The lanes of a function of (x,y). -/
def Lanes.tabulate (f : Fin 5 → Fin 5 → Lane) : Lanes :=
  Five.ofFn fun y => Five.ofFn fun x => f x y

/-! ## The bytes of S (10_state.md R22, R24) -/

/-- Column x of the lane k = x + 5*y. -/
def laneCol (k : Nat) : Fin 5 := Fin.ofNat 5 (k % 5)

/-- Row y of the lane k = x + 5*y. -/
def laneRow (k : Nat) : Fin 5 := Fin.ofNat 5 (k / 5)

/-- Byte j of a lane: (v >> (8*j)) mod 256 (10_state.md R22). -/
def laneByte (v : Lane) (j : Nat) : Byte := (v >>> (8 * j)).setWidth 8

/-- A lane with its byte j replaced. -/
def setLaneByte (v : Lane) (j : Nat) (b : Byte) : Lane :=
  (v &&& ~~~((0xFF : Lane) <<< (8 * j))) ||| (b.setWidth 64 <<< (8 * j))

/-- S[i]: byte i mod 8 of lane i div 8; an offset of 200 or more names no byte (log entry 7). -/
def Lanes.byte (L : Lanes) (i : Nat) : Byte :=
  if i < 200 then laneByte (L.lane (laneCol (i / 8)) (laneRow (i / 8))) (i % 8) else 0

/-- S[i] <- b; nothing at an offset of 200 or more (log entry 7). -/
def Lanes.setByte (L : Lanes) (i : Nat) (b : Byte) : Lanes :=
  if i < 200 then
    L.setLane (laneCol (i / 8)) (laneRow (i / 8))
      (setLaneByte (L.lane (laneCol (i / 8)) (laneRow (i / 8))) (i % 8) b)
  else L

/-- S[i] <- S[i] xor b. -/
def Lanes.xorByte (L : Lanes) (i : Nat) (b : Byte) : Lanes := L.setByte i (L.byte i ^^^ b)

/-- for i in 0..n-1: S[i] <- S[i] xor f(i). -/
def Lanes.xorBytes (f : Nat → Byte) : Nat → Lanes → Lanes
  | 0, L => L
  | n + 1, L => (xorBytes f n L).xorByte n (f n)

/-! ## The buffers IN and OUT (10_state.md R35, R36; 00_scope.md R16) -/

/-- The byte written at an offset since reset, if any. -/
def Memory.get? : Memory → Nat → Option Byte
  | [], _ => none
  | (a, b) :: m, i => if i = a then some b else Memory.get? m i

/-- A buffer with the byte at an offset written; the offsets stay strictly rising. -/
def Memory.set : Memory → Nat → Byte → Memory
  | [], i, v => [(i, v)]
  | (a, b) :: m, i, v =>
    if i < a then (i, v) :: (a, b) :: m
    else if i = a then (i, v) :: m
    else (a, b) :: Memory.set m i v

/-- Every offset listed is at or above a bound, and they rise strictly. -/
def Memory.risesFrom (bound : Nat) : Memory → Bool
  | [] => true
  | (a, _) :: m => decide (bound ≤ a) && Memory.risesFrom (a + 1) m

/-- The canonical form: offsets strictly rising. An entry is never equal to what an unlisted offset
holds, since that is no value (log entry 4). -/
def Memory.wf (m : Memory) : Bool := Memory.risesFrom 0 m

/-- Every offset listed is below the space's size. -/
def Memory.below (size : Nat) (m : Memory) : Bool := m.all fun c => decide (c.1 < size)

/-- for i in 0..n-1: the byte at start + i <- f(i). -/
def Memory.writeBytes (start : Nat) (f : Nat → Byte) : Nat → Memory → Memory
  | 0, m => m
  | n + 1, m => (Memory.writeBytes start f n m).set (start + n) (f n)

/-- IN[i]: the byte the host wrote, else the free value (10_state.md R35). -/
def State.inByte (s : State) (i : Nat) : Byte :=
  (s.inBuf.get? i).getD (Config.freeInByte s.epoch i)

/-- OUT[i]: the byte SQUEEZE wrote, else the free value (10_state.md R36). -/
def State.outByte (s : State) (i : Nat) : Byte :=
  (s.outBuf.get? i).getD (Config.freeOutByte s.epoch i)

/-! ## Errors and invocations -/

/-- An invocation is open: PHASE is ABSORB or SQUEEZE (00_scope.md R19). -/
def State.isOpen (s : State) : Bool :=
  match s.phase with
  | .absorb => true
  | .squeeze => true
  | .idle => false
  | .done => false
  | .error => false

/-- raise Err(c): PHASE <- ERROR, ERRCODE <- c, and nothing else (60_exceptions.md R203). There is no
vector, nothing is saved, and control goes nowhere. -/
def raiseErr (c : ErrCode) (s : State) : State :=
  { s with phase := .error, errcode := c }

/-- What a successful INIT writes (41_sponge.md R132): the only way out of phase ERROR but RESET
(60_exceptions.md R207). -/
def openInvocation (s : State) : State :=
  { s with
    lanes := Lanes.zero
    blk := 0
    iptr := 0
    optr := 0
    errcode := .none
    phase := .absorb }

/-- CheckParams (41_sponge.md R131): the error the parameters raise, in the order of R205, the sum
RATE + CAP taken exactly. -/
def checkParams (s : State) : Option ErrCode :=
  if s.outlen.toNat > s.params.outBytes then some .len
  else if s.rate.toNat + s.cap.toNat ≠ 1600 ∨ s.rate.toNat % 8 ≠ 0 ∨ s.rate.toNat = 0 then some .param
  else if s.inlen.toNat > s.params.inBytes then some .inlen
  else none

/-- The RESET event (70_reset_and_hazards.md R230): every piece of state at its reset value, the bytes
of IN and OUT free again. The buffer sizes are the machine's and the events to come are the host's. -/
def resetEvent (s : State) : State :=
  { State.resetWith s.params with
    epoch := s.epoch + 1
    pending := s.pending }

end Sys2Proof.Machine
end

