-- ==== Sys2Proof/Machine/Flags.lean ====
section
/-! DEFINITION. The status bits. KSE has no carry, zero, sign or overflow flag (10_state.md R45): its
only status bits are PHASE and ERRCODE in STATUS, beside R and RND in PERM (R39). -/

namespace Sys2Proof.Machine

/-- The encoding of PHASE (10_state.md R37). -/
def Phase.code : Phase → BitVec 3
  | .idle => 0
  | .absorb => 1
  | .squeeze => 2
  | .done => 3
  | .error => 4

/-- The encoding of ERRCODE (60_exceptions.md R201). -/
def ErrCode.code : ErrCode → BitVec 3
  | .none => 0
  | .param => 1
  | .len => 2
  | .inlen => 3
  | .cmd => 4
  | .seq => 5

/-- STATUS: [2:0] PHASE, [3] 0, [6:4] ERRCODE, [31:7] 0 (10_state.md R39). -/
def statusWord (s : State) : Word := (0#25 ++ s.errcode.code) ++ (0#1 ++ s.phase.code)

/-- PERM: [4:0] RND, [7:5] 0, [15:8] R, [31:16] 0 (10_state.md R39). -/
def permWord (s : State) : Word := (0#16 ++ s.r) ++ (0#3 ++ s.rnd)

end Sys2Proof.Machine
end

