-- ==== Sys2Proof/Machine/Operands.lean ====
section
/-! DEFINITION. The implicit operands of the commands (30_encoding.md R72, 41_sponge.md R145) and the
registers as the host reads and writes them (10_state.md R39). -/

namespace Sys2Proof.Machine

/-- rB = RATE div 8, the block size in bytes (41_sponge.md). -/
def State.rB (s : State) : Nat := s.rate.toNat / 8

/-- The length of the next chunk of input, n of ABSORB (41_sponge.md R133). -/
def State.chunkLen (s : State) : Nat := min (s.inlen.toNat - s.iptr.toNat) s.rB

/-- The length of the next block of output, n of SQUEEZE (41_sponge.md R135). -/
def State.blockLen (s : State) : Nat := min (s.outlen.toNat - s.optr.toNat) s.rB

/-- Input byte i of the next chunk: IN[IPTR + i] (41_sponge.md R145). -/
def State.chunkByte (s : State) (i : Nat) : Byte := s.inByte (s.iptr.toNat + i)

/-- The input of an invocation: IN[0..INLEN-1] (30_encoding.md R72). -/
def State.inputBytes (s : State) : List Byte := (List.range s.inlen.toNat).map s.inByte

/-- The value RD returns (43_host_access.md R181, 10_state.md R39). -/
def readCsr (reg : Csr) (s : State) : Word :=
  match reg with
  | .cmd => 0
  | .status => statusWord s
  | .rate => s.rate
  | .cap => s.cap
  | .sfx => s.sfx.setWidth 32
  | .inlen => s.inlen
  | .outlen => s.outlen
  | .blk => s.blk.setWidth 32
  | .iptr => s.iptr
  | .optr => s.optr
  | .perm => permWord s

/-- REG <- v for the parameter registers, SFX taking v[7:0] (43_host_access.md R182). The others are
not stored to: CMD executes, the rest are read-only. -/
def writeCsr (reg : Csr) (v : Word) (s : State) : State :=
  match reg with
  | .rate => { s with rate := v }
  | .cap => { s with cap := v }
  | .sfx => { s with sfx := v.setWidth 8 }
  | .inlen => { s with inlen := v }
  | .outlen => { s with outlen := v }
  | .cmd => s
  | .status => s
  | .blk => s
  | .iptr => s
  | .optr => s
  | .perm => s

/-- The access column of 10_state.md R39: RO. -/
def Csr.isReadOnly : Csr → Bool
  | .status | .blk | .iptr | .optr | .perm => true
  | .cmd | .rate | .cap | .sfx | .inlen | .outlen => false

/-- The parameter registers, which the write lock covers (43_host_access.md R185). -/
def Csr.isParam : Csr → Bool
  | .rate | .cap | .sfx | .inlen | .outlen => true
  | .cmd | .status | .blk | .iptr | .optr | .perm => false

/-- RDB: the byte of a space at an offset (43_host_access.md R183). -/
def readSpace (space : Space) (offset : Nat) (s : State) : Byte :=
  match space with
  | .stateBytes => s.lanes.byte offset
  | .input => s.inByte offset
  | .output => s.outByte offset

/-- WRB: one byte of S or IN; OUT is never written by the host (43_host_access.md R183). -/
def writeSpace (space : Space) (offset : Nat) (v : Byte) (s : State) : State :=
  match space with
  | .stateBytes => { s with lanes := s.lanes.setByte offset v }
  | .input => { s with inBuf := s.inBuf.set offset v }
  | .output => s

/-- Size of a space for this machine (20_memory.md R50). -/
abbrev spaceSize (space : Space) (s : State) : Nat :=
  match space with
  | .stateBytes => 200
  | .input => s.params.inBytes
  | .output => s.params.outBytes

end Sys2Proof.Machine
end

