-- ==== Sys2Proof/Machine/Permutation.lean ====
section
/-! DEFINITION. Group 1, the permutation core (40_permutation.md): the five steps as functions of the
lanes, PERMUTE, and the meanings of PINIT, THETA, RHOPI, CHI, IOTA, ROUND, F1600. -/

namespace Sys2Proof.Machine

/-- ROTL64(v, n) (00_scope.md R14). -/
def rotl64 (v : Lane) (n : Nat) : Lane :=
  let m := n % 64
  if m = 0 then v else (v <<< m) ^^^ (v >>> (64 - m))

/-- C[x] of theta: the parity of column x (40_permutation.md R101). -/
def thetaC (L : Lanes) : Five Lane :=
  Five.ofFn fun x => L.lane x 0 ^^^ L.lane x 1 ^^^ L.lane x 2 ^^^ L.lane x 3 ^^^ L.lane x 4

/-- D[x] of theta; x + 4 and x + 1 are sums mod 5 (40_permutation.md R101). -/
def thetaD (c : Five Lane) : Five Lane :=
  Five.ofFn fun x => c.get (x + 4) ^^^ rotl64 (c.get (x + 1)) 1

/-- The theta step (40_permutation.md R101). -/
def theta (L : Lanes) : Lanes :=
  let d := thetaD (thetaC L)
  Lanes.tabulate fun x y => L.lane x y ^^^ d.get x

/-- The loop of rho/pi: n iterations left, the index t, the position (x,y), the running lane current
(40_permutation.md R102). Sums and products of positions are mod 5. -/
def rhoPiWalk : Nat → Nat → Fin 5 → Fin 5 → Lane → Lanes → Lanes
  | 0, _, _, _, _, L => L
  | n + 1, t, x, y, current, L =>
    let x' := y
    let y' := 2 * x + 3 * y
    rhoPiWalk n (t + 1) x' y' (L.lane x' y')
      (L.setLane x' y' (rotl64 current (((t + 1) * (t + 2) / 2) % 64)))

/-- The fused rho and pi step (40_permutation.md R102). -/
def rhoPi (L : Lanes) : Lanes := rhoPiWalk 24 0 1 0 (L.lane 1 0) L

/-- The chi step; x + 1 and x + 2 are sums mod 5 (40_permutation.md R104). -/
def chi (L : Lanes) : Lanes :=
  Lanes.tabulate fun x y => L.lane x y ^^^ (~~~(L.lane (x + 1) y) &&& L.lane (x + 2) y)

/-- LFSR(R) (40_permutation.md R106): the reduction mod 256 is over the whole right-hand side
(90_conflicts.md C6). -/
def lfsr (r : Byte) : Byte := (r <<< 1) ^^^ ((r >>> 7) * 0x71)

/-- The loop of iota: n iterations left, the index j, R, lane(0,0) (40_permutation.md R105). -/
def iotaLoop : Nat → Nat → Byte → Lane → Byte × Lane
  | 0, _, r, v => (r, v)
  | n + 1, j, r, v =>
    let r' := lfsr r
    iotaLoop n (j + 1) r' (if r'.getLsbD 1 then v ^^^ ((1 : Lane) <<< ((1 <<< j) - 1)) else v)

/-- The iota step on the lanes and R (40_permutation.md R105). -/
def iota (L : Lanes) (r : Byte) : Lanes × Byte :=
  let p := iotaLoop 7 0 r (L.lane 0 0)
  (L.setLane 0 0 p.2, p.1)

/-- One round on the lanes and R: theta, rho/pi, chi, iota (40_permutation.md R109). -/
def keccakRound (p : Lanes × Byte) : Lanes × Byte := iota (chi (rhoPi (theta p.1))) p.2

/-- n rounds on the lanes and R. -/
def keccakRounds : Nat → Lanes × Byte → Lanes × Byte
  | 0, p => p
  | n + 1, p => keccakRounds n (keccakRound p)

/-- F of 41_sponge.md R130: 24 rounds with R starting at 1. -/
def keccakF (L : Lanes) : Lanes := (keccakRounds 24 (L, 0x01)).1

/-- R <- 0x01, RND <- 0 (40_permutation.md R108). -/
def pinitStep (s : State) : State := { s with r := 0x01, rnd := 0 }

/-- The THETA step on the state. -/
def thetaStep (s : State) : State := { s with lanes := theta s.lanes }

/-- The RHOPI step on the state. -/
def rhoPiStep (s : State) : State := { s with lanes := rhoPi s.lanes }

/-- The CHI step on the state. -/
def chiStep (s : State) : State := { s with lanes := chi s.lanes }

/-- The IOTA step on the state. -/
def iotaStep (s : State) : State :=
  let p := iota s.lanes s.r
  { s with lanes := p.1, r := p.2 }

/-- The four steps in order, then RND <- RND + 1 (40_permutation.md R109, R114). -/
def roundStep (s : State) : State :=
  let s' := iotaStep (chiStep (rhoPiStep (thetaStep s)))
  { s' with rnd := s'.rnd + 1 }

/-- n rounds on the state. -/
def roundSteps : Nat → State → State
  | 0, s => s
  | n + 1, s => roundSteps n (roundStep s)

/-- PERMUTE (40_permutation.md R114). -/
def permute (s : State) : State := roundSteps 24 (pinitStep s)

/-- The enabling condition of the group (40_permutation.md R100): with an invocation open, ERR_SEQ. -/
def whenClosed (f : State → State) (s : State) : State :=
  if s.isOpen then raiseErr .seq s else f s

/-- PINIT (40_permutation.md R108). -/
def execPinit (s : State) : Host.Outcome State Fault Refusal := .next (whenClosed pinitStep s)

/-- THETA (40_permutation.md R101). -/
def execTheta (s : State) : Host.Outcome State Fault Refusal := .next (whenClosed thetaStep s)

/-- RHOPI (40_permutation.md R102). -/
def execRhopi (s : State) : Host.Outcome State Fault Refusal := .next (whenClosed rhoPiStep s)

/-- CHI (40_permutation.md R104). -/
def execChi (s : State) : Host.Outcome State Fault Refusal := .next (whenClosed chiStep s)

/-- IOTA (40_permutation.md R105). -/
def execIota (s : State) : Host.Outcome State Fault Refusal := .next (whenClosed iotaStep s)

/-- ROUND: enabled when RND < 24 too (40_permutation.md R109; log entry 8 for RND above 24). -/
def execRound (s : State) : Host.Outcome State Fault Refusal :=
  .next (whenClosed (fun u => if u.rnd < 24 then roundStep u else raiseErr .seq u) s)

/-- F1600 (40_permutation.md R110). -/
def execF1600 (s : State) : Host.Outcome State Fault Refusal := .next (whenClosed permute s)

end Sys2Proof.Machine
end

