-- ==== Sys2Proof/Machine/Sponge.lean ====
section
/-! DEFINITION. Group 2, the sponge (41_sponge.md): the steps INIT, ABSORB, PAD, SQUEEZE and KECCAK,
and their meanings. -/

namespace Sys2Proof.Machine

/-- The INIT step (41_sponge.md R132): the check before the first state change. -/
def initStep (s : State) : State :=
  match checkParams s with
  | some c => raiseErr c s
  | none => openInvocation s

/-- ABSORB's xor of the next chunk into S and the advance of IPTR (41_sponge.md R133). -/
def xorChunk (s : State) : State :=
  { s with
    lanes := s.lanes.xorBytes s.chunkByte s.chunkLen
    iptr := s.iptr + BitVec.ofNat 32 s.chunkLen }

/-- The ABSORB step, once enabled (41_sponge.md R133): one chunk; a full one is permuted. -/
def absorbStep (s : State) : State :=
  if s.chunkLen = s.rB then { permute (xorChunk s) with blk := 0 }
  else { xorChunk s with blk := BitVec.ofNat 8 s.chunkLen }

/-- S[i] <- S[i] xor b on the state. -/
def xorStateByte (i : Nat) (b : Byte) (s : State) : State :=
  { s with lanes := s.lanes.xorByte i b }

/-- PAD's suffix byte with the conditional permutation (41_sponge.md R134). -/
def padSuffix (s : State) : State :=
  if s.sfx.getLsbD 7 ∧ s.blk.toNat = s.rB - 1 then permute (xorStateByte s.blk.toNat s.sfx s)
  else xorStateByte s.blk.toNat s.sfx s

/-- The PAD step, once enabled (41_sponge.md R134). -/
def padStep (s : State) : State :=
  { permute (xorStateByte (s.rB - 1) 0x80 (padSuffix s)) with
    phase := if s.outlen.toNat > 0 then .squeeze else .done }

/-- SQUEEZE's copy of the next block to OUT and the advance of OPTR (41_sponge.md R135). -/
def copyBlock (s : State) : State :=
  { s with
    outBuf := s.outBuf.writeBytes s.optr.toNat s.lanes.byte s.blockLen
    optr := s.optr + BitVec.ofNat 32 s.blockLen }

/-- The SQUEEZE step, once enabled (41_sponge.md R135): one block; a permutation only if more output
remains after it. -/
def squeezeStep (s : State) : State :=
  if (copyBlock s).optr.toNat < s.outlen.toNat then permute (copyBlock s)
  else { copyBlock s with phase := .done }

/-- while IPTR < INLEN: ABSORB-step, at most n times (41_sponge.md R136; log entry 10). -/
def absorbLoop : Nat → State → State
  | 0, s => s
  | n + 1, s => if s.iptr.toNat < s.inlen.toNat then absorbLoop n (absorbStep s) else s

/-- while PHASE = SQUEEZE: SQUEEZE-step, at most n times (41_sponge.md R136; log entry 10). -/
def squeezeLoop : Nat → State → State
  | 0, s => s
  | n + 1, s => if s.phase = .squeeze then squeezeLoop n (squeezeStep s) else s

/-- The KECCAK steps (41_sponge.md R136): INIT; if it raised, stop; else absorb all, pad, squeeze all. -/
def keccakSteps (s : State) : State :=
  match checkParams s with
  | some c => raiseErr c s
  | none =>
    squeezeLoop s.outlen.toNat (padStep (absorbLoop s.inlen.toNat (openInvocation s)))

/-- INIT (41_sponge.md R132): enabled in every phase. -/
def execInit (s : State) : Host.Outcome State Fault Refusal := .next (initStep s)

/-- ABSORB (41_sponge.md R133). -/
def execAbsorb (s : State) : Host.Outcome State Fault Refusal :=
  .next (if s.phase = .absorb ∧ s.iptr.toNat < s.inlen.toNat then absorbStep s else raiseErr .seq s)

/-- PAD (41_sponge.md R134). -/
def execPad (s : State) : Host.Outcome State Fault Refusal :=
  .next (if s.phase = .absorb ∧ s.iptr = s.inlen then padStep s else raiseErr .seq s)

/-- SQUEEZE (41_sponge.md R135). -/
def execSqueeze (s : State) : Host.Outcome State Fault Refusal :=
  .next (if s.phase = .squeeze then squeezeStep s else raiseErr .seq s)

/-- KECCAK (41_sponge.md R136): enabled in every phase. -/
def execKeccak (s : State) : Host.Outcome State Fault Refusal := .next (keccakSteps s)

end Sys2Proof.Machine
end

