-- ==== Sys2Proof/Machine/Wrappers.lean ====
section
/-! DEFINITION. Group 3, the wrapper controllers (42_wrappers.md): each loads its row of the parameter
table R160 and runs the KECCAK steps (R161). -/

namespace Sys2Proof.Machine

/-- RATE, CAP and SFX loaded from a row of 42_wrappers.md R160. -/
def loadParams (rate cap : Word) (sfx : Byte) (s : State) : State :=
  { s with rate := rate, cap := cap, sfx := sfx }

/-- The SHA3 template: OUTLEN is loaded too, and the loads stand even if the check fails
(42_wrappers.md R161). -/
def sha3Steps (rate cap : Word) (outlen : Word) (s : State) : State :=
  keccakSteps { loadParams rate cap 0x06 s with outlen := outlen }

/-- The SHAKE template: OUTLEN stays as the host wrote it (42_wrappers.md R161). -/
def shakeSteps (rate cap : Word) (s : State) : State := keccakSteps (loadParams rate cap 0x1F s)

/-- SHA3_224 (42_wrappers.md R162). -/
def execSha3_224 (s : State) : Host.Outcome State Fault Refusal := .next (sha3Steps 1152 448 28 s)

/-- SHA3_256 (42_wrappers.md R163). -/
def execSha3_256 (s : State) : Host.Outcome State Fault Refusal := .next (sha3Steps 1088 512 32 s)

/-- SHA3_384 (42_wrappers.md R164). -/
def execSha3_384 (s : State) : Host.Outcome State Fault Refusal := .next (sha3Steps 832 768 48 s)

/-- SHA3_512 (42_wrappers.md R165). -/
def execSha3_512 (s : State) : Host.Outcome State Fault Refusal := .next (sha3Steps 576 1024 64 s)

/-- SHAKE128 (42_wrappers.md R167). -/
def execShake128 (s : State) : Host.Outcome State Fault Refusal := .next (shakeSteps 1344 256 s)

/-- SHAKE256 (42_wrappers.md R168). -/
def execShake256 (s : State) : Host.Outcome State Fault Refusal := .next (shakeSteps 1088 512 s)

end Sys2Proof.Machine
end

