-- ==== Sys2Proof/Machine/Dispatch.lean ====
section
/-! DEFINITION. The one dispatch of a command to its meaning. -/

namespace Sys2Proof.Machine

def exec (i : Instr) (s : State) : Host.Outcome State Fault Refusal :=
  match i with
  | .pinit => Sys2Proof.Machine.execPinit s
  | .theta => Sys2Proof.Machine.execTheta s
  | .rhopi => Sys2Proof.Machine.execRhopi s
  | .chi => Sys2Proof.Machine.execChi s
  | .iota => Sys2Proof.Machine.execIota s
  | .round => Sys2Proof.Machine.execRound s
  | .f1600 => Sys2Proof.Machine.execF1600 s
  | .init => Sys2Proof.Machine.execInit s
  | .absorb => Sys2Proof.Machine.execAbsorb s
  | .pad => Sys2Proof.Machine.execPad s
  | .squeeze => Sys2Proof.Machine.execSqueeze s
  | .keccak => Sys2Proof.Machine.execKeccak s
  | .sha3_224 => Sys2Proof.Machine.execSha3_224 s
  | .sha3_256 => Sys2Proof.Machine.execSha3_256 s
  | .sha3_384 => Sys2Proof.Machine.execSha3_384 s
  | .sha3_512 => Sys2Proof.Machine.execSha3_512 s
  | .shake128 => Sys2Proof.Machine.execShake128 s
  | .shake256 => Sys2Proof.Machine.execShake256 s

end Sys2Proof.Machine
end

