-- ==== Sys2Proof/Machine/HostAccess.lean ====
section
/-! DEFINITION. The host transactions RD, WR, RDB, WRB (43_host_access.md), the command port, and the
performance of one host event. -/

namespace Sys2Proof.Machine

/-- A write of a register that 43_host_access.md R184(c), (f) refuses: a read-only register, or a
parameter register while an invocation is open (R185). -/
def refusesWriteOf (reg : Csr) (s : State) : Bool :=
  Csr.isReadOnly reg || (Csr.isParam reg && s.isOpen)

/-- The refusal conditions (43_host_access.md R184). The offsets that are not a multiple of 4 or are
above 0x28 are those at which no register stands. -/
def refuses (t : Transaction) (s : State) : Bool :=
  match t with
  | .rd width offset => width != 32 || (Csr.ofOffset offset).isNone
  | .wr width offset _ =>
    width != 32 ||
      (match Csr.ofOffset offset with
       | none => true
       | some reg => refusesWriteOf reg s)
  | .rdb space width offset => width != 8 || decide (spaceSize space s ≤ offset)
  | .wrb space width offset _ =>
    width != 8 || decide (spaceSize space s ≤ offset) || space == .output || s.isOpen

/-- The state with the response to a transaction recorded (log entry 2). -/
def respond (resp : Response) (s : State) : State := { s with response := some resp }

/-- A WR to CMD (43_host_access.md R182): decode the word and execute the command to completion; an
illegal word raises ERR_CMD in every phase (30_encoding.md R74). The response is OK either way. -/
def writeCmd (w : Word) (s : State) : Host.Outcome State Fault Refusal :=
  match decode w with
  | .error _ => .next (respond .ok (raiseErr .cmd s))
  | .ok i =>
    match exec i s with
    | .next s' => .next (respond .ok s')
    | .fault f => .fault f
    | .refused r => .refused r

/-- A transaction that is not refused (43_host_access.md R181 to R183). -/
def accept (t : Transaction) (s : State) : Host.Outcome State Fault Refusal :=
  match t with
  | .rd _ offset =>
    match Csr.ofOffset offset with
    | some reg => .next (respond (.okWord (readCsr reg s)) s)
    | none => .next (respond .refused s)
  | .wr _ offset v =>
    match Csr.ofOffset offset with
    | some .cmd => writeCmd v s
    | some reg => .next (respond .ok (writeCsr reg v s))
    | none => .next (respond .refused s)
  | .rdb space _ offset => .next (respond (.okByte (readSpace space offset s)) s)
  | .wrb space _ offset v => .next (respond .ok (writeSpace space offset v s))

/-- One transaction (43_host_access.md R180): refused with no state change, or performed. -/
def perform (t : Transaction) (s : State) : Host.Outcome State Fault Refusal :=
  if refuses t s then .next (respond .refused s) else accept t s

/-- One host event (43_host_access.md R180, 70_reset_and_hazards.md R230; log entry 5). -/
def performEvent (e : HostEvent) (s : State) : Host.Outcome State Fault Refusal :=
  match e with
  | .transaction t => perform t s
  | .reset => .next (resetEvent s)
  | .resetDuring _ => .next (resetEvent s)

/-- The oldest pending event is performed; with none, KSE is idle and keeps all state
(60_exceptions.md R224; log entry 1). -/
def runNext (s : State) : Host.Outcome State Fault Refusal :=
  match s.pending with
  | [] => .next s
  | e :: rest => performEvent e { s with pending := rest }

end Sys2Proof.Machine
end

