-- ==== Sys2Proof/Machine/Step.lean ====
section
/-! DEFINITION. One step of the machine, and the placing of a command word where the step takes it. -/

namespace Sys2Proof.Machine

/-- One step: the oldest event of the host is performed (log entry 1). -/
def step (s : State) : Host.Outcome State Fault Refusal := runNext s

/-- The host issues the word w next: a WR to CMD at the head of its events (30_encoding.md R78(a);
log entries 1 and 12). Nothing else changes. -/
def State.withFetchWord (s : State) (nbits w : Nat) : State :=
  { s with pending := writeReg .cmd (tableWord nbits w) :: s.pending }

end Sys2Proof.Machine
end

