-- ==== Sys2Proof/Machine/SpongeFunction.lean ====
section
/-! DEFINITION. The sponge function of 41_sponge.md R130 on byte sequences, the reference the commands
are held to, and the count of permutations of one invocation (R142). No command calls these. -/

namespace Sys2Proof.Machine

/-- The state after c full chunks of M: for each, s[i] = s[i] xor M[c*rB + i], then s = F(s) (R130). -/
def absorbFull (rB : Nat) (M : List Byte) : Nat → Lanes
  | 0 => Lanes.zero
  | c + 1 => keccakF ((absorbFull rB M c).xorBytes (fun i => M.getD (c * rB + i) 0) rB)

/-- The state after the final partial chunk of b = m mod rB bytes (R130). -/
def absorbAll (rB : Nat) (M : List Byte) : Lanes :=
  (absorbFull rB M (M.length / rB)).xorBytes (fun i => M.getD (M.length / rB * rB + i) 0)
    (M.length % rB)

/-- The padding of R130 and the two permutations, the first of them conditional. -/
def padState (rB : Nat) (b : Nat) (sfx : Byte) (L : Lanes) : Lanes :=
  let L1 := L.xorByte b sfx
  let L2 := if sfx.getLsbD 7 ∧ b = rB - 1 then keccakF L1 else L1
  keccakF (L2.xorByte (rB - 1) 0x80)

/-- The output loop of R130, n bytes still wanted, in at most fuel blocks. -/
def squeezeBytes (rB : Nat) : Nat → Nat → Lanes → List Byte
  | 0, _, _ => []
  | fuel + 1, n, L =>
    if n = 0 then []
    else (List.range (min n rB)).map L.byte ++ squeezeBytes rB fuel (n - min n rB) (keccakF L)

/-- Sponge(rate, capacity, M, sfx, n) (41_sponge.md R130), for rate + capacity = 1600. The capacity
enters no computation (10_state.md R29). -/
def sponge (rate _capacity : Nat) (M : List Byte) (sfx : Byte) (n : Nat) : List Byte :=
  squeezeBytes (rate / 8) n n
    (padState (rate / 8) (M.length % (rate / 8)) sfx (absorbAll (rate / 8) M))

/-- The permutations in the absorb loop: one for each full chunk (41_sponge.md R133). -/
def absorbPermutes : Nat → State → Nat
  | 0, _ => 0
  | n + 1, s =>
    if s.iptr.toNat < s.inlen.toNat then
      (if s.chunkLen = s.rB then 1 else 0) + absorbPermutes n (absorbStep s)
    else 0

/-- The permutations in PAD (41_sponge.md R134). -/
def padPermutes (s : State) : Nat :=
  if s.sfx.getLsbD 7 ∧ s.blk.toNat = s.rB - 1 then 2 else 1

/-- The permutations in the squeeze loop: one between two blocks (41_sponge.md R135). -/
def squeezePermutes : Nat → State → Nat
  | 0, _ => 0
  | n + 1, s =>
    if s.phase = .squeeze then
      (if (copyBlock s).optr.toNat < s.outlen.toNat then 1 else 0) + squeezePermutes n (squeezeStep s)
    else 0

/-- The permutations in one KECCAK with legal parameters (41_sponge.md R142). -/
def keccakPermutes (s : State) : Nat :=
  let s1 := absorbLoop s.inlen.toNat (openInvocation s)
  absorbPermutes s.inlen.toNat (openInvocation s) + padPermutes s1 +
    squeezePermutes s.outlen.toNat (padStep s1)

end Sys2Proof.Machine
end

