-- ==== Sys2Proof/Safety.lean ====
section
/-! DEFINITION. What counts as a safe state and a safe command, in the terms the statements use: the
invariant of 10_state.md R41, and the spec's summary tables (which error a command raises, which phase
follows, the opcode map, the round constants, the parameter table) written out from the spec,
independently of the meanings. -/

namespace Sys2Proof.Safety

open Sys2Proof.Machine

/-! ## The invariant -/

/-- R41(b): RND is at most 24. -/
abbrev RoundCountOk (s : State) : Prop := s.rnd.toNat ≤ 24

/-- R41(c): ERRCODE is nonzero exactly when PHASE = ERROR. -/
abbrev ErrorCodeOk (s : State) : Prop := s.errcode ≠ .none ↔ s.phase = .error

/-- R41(d): while an invocation is open the parameters are legal and the pointers in range. -/
abbrev OpenOk (s : State) : Prop :=
  s.phase = .absorb ∨ s.phase = .squeeze →
    s.rate.toNat + s.cap.toNat = 1600 ∧ s.rate.toNat % 8 = 0 ∧
    8 ≤ s.rate.toNat ∧ s.rate.toNat ≤ 1600 ∧
    s.inlen.toNat ≤ s.params.inBytes ∧ s.outlen.toNat ≤ s.params.outBytes ∧
    s.iptr.toNat ≤ s.inlen.toNat ∧ s.optr.toNat ≤ s.outlen.toNat

/-- R41(e): in phase ABSORB, BLK = IPTR mod (RATE div 8), and BLK = 0 while input remains. The last
conjunct is the model's: OPTR is still the 0 that INIT left (41_sponge.md R132), without which PAD would
not keep R41(f). -/
abbrev AbsorbOk (s : State) : Prop :=
  s.phase = .absorb →
    s.blk.toNat = s.iptr.toNat % (s.rate.toNat / 8) ∧
    s.blk.toNat ≤ s.rate.toNat / 8 - 1 ∧
    (s.iptr.toNat < s.inlen.toNat → s.blk = 0) ∧
    s.optr = 0

/-- R41(f): in phase SQUEEZE, OPTR < OUTLEN and OPTR is a multiple of the block size. -/
abbrev SqueezeOk (s : State) : Prop :=
  s.phase = .squeeze →
    s.optr.toNat < s.outlen.toNat ∧ s.optr.toNat % (s.rate.toNat / 8) = 0

/-- R41(g): in phase DONE every byte of the output has been produced. -/
abbrev DoneOk (s : State) : Prop := s.phase = .done → s.optr = s.outlen

/-- The buffers are in canonical form and list offsets below their sizes only (20_memory.md R50). -/
abbrev BuffersOk (s : State) : Prop :=
  s.inBuf.wf = true ∧ s.outBuf.wf = true ∧
  s.inBuf.below s.params.inBytes = true ∧ s.outBuf.below s.params.outBytes = true

/-- What every step keeps: R41(b) to (f) and the buffers' form. R41(a) is the type of the lanes; for R41(g)
see R41Holds. -/
abbrev MachineInv (s : State) : Prop :=
  RoundCountOk s ∧ ErrorCodeOk s ∧ OpenOk s ∧ AbsorbOk s ∧ SqueezeOk s ∧ BuffersOk s

/-- R41 whole. -/
abbrev R41Holds (s : State) : Prop := MachineInv s ∧ DoneOk s

/-- The step from s to t is a WR that gives OUTLEN a value other than OPTR in phase DONE, where
43_host_access.md R182 accepts it: the one step that ends R41(g) (log entry 6). -/
abbrev RewritesOutlenWhenDone (s t : State) : Prop :=
  s.phase = .done ∧ ∃ (v : Word) (rest : List HostEvent), v ≠ s.optr ∧
    s.pending = .transaction (.wr 32 0x18 v) :: rest ∧
    t = { s with pending := rest, outlen := v, response := some .ok }

/-- A safe step: it answers a next state that meets the invariant. -/
def SafeStep (s : State) : Prop := ∃ t, step s = .next t ∧ MachineInv t

/-! ## Parameters -/

/-- No condition of CheckParams (41_sponge.md R131) holds. -/
abbrev LegalParams (s : State) : Prop :=
  s.outlen.toNat ≤ s.params.outBytes ∧ s.rate.toNat + s.cap.toNat = 1600 ∧
  s.rate.toNat % 8 = 0 ∧ s.rate.toNat ≠ 0 ∧ s.inlen.toNat ≤ s.params.inBytes

/-- A row of the parameter table (42_wrappers.md R160). -/
structure Row where
  rate   : Word
  cap    : Word
  sfx    : Byte
  outlen : Option Word
deriving DecidableEq, Repr

/-- The parameter table (42_wrappers.md R160). -/
def row : Instr → Option Row
  | .sha3_224 => some { rate := 1152, cap := 448, sfx := 0x06, outlen := some 28 }
  | .sha3_256 => some { rate := 1088, cap := 512, sfx := 0x06, outlen := some 32 }
  | .sha3_384 => some { rate := 832, cap := 768, sfx := 0x06, outlen := some 48 }
  | .sha3_512 => some { rate := 576, cap := 1024, sfx := 0x06, outlen := some 64 }
  | .shake128 => some { rate := 1344, cap := 256, sfx := 0x1F, outlen := none }
  | .shake256 => some { rate := 1088, cap := 512, sfx := 0x1F, outlen := none }
  | .pinit | .theta | .rhopi | .chi | .iota | .round | .f1600 => none
  | .init | .absorb | .pad | .squeeze | .keccak => none

/-- The parameter registers with a row loaded (42_wrappers.md R161). -/
def Row.load (w : Row) (s : State) : State :=
  { s with rate := w.rate, cap := w.cap, sfx := w.sfx, outlen := w.outlen.getD s.outlen }

/-- The state a command's parameter check sees: a wrapper's row is loaded first (42_wrappers.md R161). -/
def loaded (i : Instr) (s : State) : State :=
  match row i with
  | some w => w.load s
  | none => s

/-! ## The summary tables -/

/-- The permutation commands (40_permutation.md). -/
def isPermutation : Instr → Bool
  | .pinit | .theta | .rhopi | .chi | .iota | .round | .f1600 => true
  | .init | .absorb | .pad | .squeeze | .keccak => false
  | .sha3_224 | .sha3_256 | .sha3_384 | .sha3_512 | .shake128 | .shake256 => false

/-- The commands that start an invocation: INIT, KECCAK and the wrappers. -/
def startsInvocation : Instr → Bool
  | .init | .keccak => true
  | .sha3_224 | .sha3_256 | .sha3_384 | .sha3_512 | .shake128 | .shake256 => true
  | .pinit | .theta | .rhopi | .chi | .iota | .round | .f1600 => false
  | .absorb | .pad | .squeeze => false

/-- The enabling conditions (60_exceptions.md R202, 41_sponge.md R139). -/
def enabled (i : Instr) (s : State) : Prop :=
  match i with
  | .pinit | .theta | .rhopi | .chi | .iota | .f1600 => s.phase ≠ .absorb ∧ s.phase ≠ .squeeze
  | .round => s.phase ≠ .absorb ∧ s.phase ≠ .squeeze ∧ s.rnd.toNat < 24
  | .absorb => s.phase = .absorb ∧ s.iptr.toNat < s.inlen.toNat
  | .pad => s.phase = .absorb ∧ s.iptr = s.inlen
  | .squeeze => s.phase = .squeeze
  | .init | .keccak => True
  | .sha3_224 | .sha3_256 | .sha3_384 | .sha3_512 | .shake128 | .shake256 => True

/-- The order of checks among the parameter errors (60_exceptions.md R205): which one is raised. -/
def raisesParam (c : ErrCode) (s : State) : Prop :=
  let badLen := s.outlen.toNat > s.params.outBytes
  let badParam := s.rate.toNat + s.cap.toNat ≠ 1600 ∨ s.rate.toNat % 8 ≠ 0 ∨ s.rate.toNat = 0
  let badInlen := s.inlen.toNat > s.params.inBytes
  match c with
  | .len => badLen
  | .param => ¬badLen ∧ badParam
  | .inlen => ¬badLen ∧ ¬badParam ∧ badInlen
  | .none | .cmd | .seq => False

/-- Command i raises error c in state s (60_exceptions.md R202, R205). -/
def raises (i : Instr) (c : ErrCode) (s : State) : Prop :=
  (c = .seq ∧ ¬enabled i s) ∨ (startsInvocation i = true ∧ raisesParam c (loaded i s))

/-- The opcode map (30_encoding.md R73). -/
def opcodeMap : List (Word × Instr) :=
  [(0x00000010, .pinit), (0x00000011, .theta), (0x00000012, .rhopi), (0x00000013, .chi),
   (0x00000014, .iota), (0x00000015, .round), (0x00000016, .f1600)] ++
  [(0x00000020, .init), (0x00000021, .absorb), (0x00000022, .pad), (0x00000023, .squeeze),
   (0x00000024, .keccak)] ++
  [(0x00000030, .sha3_224), (0x00000031, .sha3_256), (0x00000032, .sha3_384),
   (0x00000033, .sha3_512), (0x00000034, .shake128), (0x00000035, .shake256)]

/-- A word is illegal by the enumeration of 30_encoding.md R74. -/
abbrev illegalWord (w : Word) : Prop :=
  zeroField w ≠ 0 ∨ grpField w = 0 ∨ 4 ≤ (grpField w).toNat ∨
  (grpField w = 1 ∧ 7 ≤ (fnField w).toNat) ∨ (grpField w = 2 ∧ 5 ≤ (fnField w).toNat) ∨
  (grpField w = 3 ∧ 6 ≤ (fnField w).toNat)

/-- A transaction is refused by one of the clauses (a) to (f) of 43_host_access.md R184. -/
def refusedBy (t : Transaction) (s : State) : Prop :=
  match t with
  | .rd width offset => offset % 4 ≠ 0 ∨ offset > 0x28 ∨ width ≠ 32
  | .wr width offset _ =>
    offset % 4 ≠ 0 ∨ offset > 0x28 ∨ width ≠ 32 ∨
    offset ∈ [0x04, 0x1C, 0x20, 0x24, 0x28] ∨
    (offset ∈ [0x08, 0x0C, 0x10, 0x14, 0x18] ∧ (s.phase = .absorb ∨ s.phase = .squeeze))
  | .rdb space width offset => width ≠ 8 ∨ offset ≥ space.bytes s.params
  | .wrb space width offset _ =>
    width ≠ 8 ∨ offset ≥ space.bytes s.params ∨ space = .output ∨
    s.phase = .absorb ∨ s.phase = .squeeze

/-- The cell of the phase machine's table (41_sponge.md R139) for command i issued in state s, said of the
state t afterwards. E:SEQ is Err(ERR_SEQ). -/
def phaseAfter (i : Instr) (s t : State) : Prop :=
  let eSeq := t.phase = .error ∧ t.errcode = .seq
  match i with
  | .pinit | .theta | .rhopi | .chi | .iota | .f1600 =>
    if s.phase = .absorb ∨ s.phase = .squeeze then eSeq else t.phase = s.phase
  | .round =>
    if s.phase = .absorb ∨ s.phase = .squeeze ∨ 24 ≤ s.rnd.toNat then eSeq else t.phase = s.phase
  | .init => if LegalParams s then t.phase = .absorb else t.phase = .error
  | .absorb =>
    if s.phase = .absorb ∧ s.iptr.toNat < s.inlen.toNat then t.phase = .absorb else eSeq
  | .pad =>
    if s.phase = .absorb ∧ s.iptr = s.inlen then
      if 0 < s.outlen.toNat then t.phase = .squeeze else t.phase = .done
    else eSeq
  | .squeeze =>
    if s.phase = .squeeze then
      if s.rate.toNat / 8 < s.outlen.toNat - s.optr.toNat then t.phase = .squeeze else t.phase = .done
    else eSeq
  | .keccak => if LegalParams s then t.phase = .done else t.phase = .error
  | .sha3_224 | .sha3_256 | .sha3_384 | .sha3_512 | .shake128 | .shake256 =>
    if LegalParams (loaded i s) then t.phase = .done else t.phase = .error

/-- The rotation offsets r(x,y) of 40_permutation.md R103, row y, column x. -/
def rhoOffset (x y : Fin 5) : Nat :=
  ([[0, 1, 62, 28, 27], [36, 44, 6, 55, 20], [3, 10, 43, 25, 39], [41, 45, 15, 21, 8],
    [18, 2, 61, 56, 14]].getD y.val []).getD x.val 0

/-- The round constants RC[0..23] of 40_permutation.md R107. -/
def roundConstants : List Lane :=
  [0x0000000000000001, 0x0000000000008082, 0x800000000000808A, 0x8000000080008000,
   0x000000000000808B, 0x0000000080000001, 0x8000000080008081, 0x8000000000008009] ++
  [0x000000000000008A, 0x0000000000000088, 0x0000000080008009, 0x000000008000000A,
   0x000000008000808B, 0x800000000000008B, 0x8000000000008089, 0x8000000000008003] ++
  [0x8000000000008002, 0x8000000000000080, 0x000000000000800A, 0x800000008000000A,
   0x8000000080008081, 0x8000000000008080, 0x0000000080000001, 0x8000000080008008]

/-- R before round i and after the last, the seventh value of each row of 40_permutation.md R107. -/
def roundR : List Byte :=
  [0x01, 0x80, 0xD8, 0x1A, 0xDF, 0x09, 0x35, 0x4F, 0xCA, 0x70, 0x41, 0xEC, 0xD5, 0xCD, 0x63, 0xAB,
   0xAA, 0x2A, 0xF2, 0xE8, 0x37, 0x3E, 0x0B, 0x44, 0x8E]

/-- LFSR(R) as a number: ((R << 1) xor ((R >> 7) * 0x71)) mod 256 (40_permutation.md R106). -/
def lfsrNat (r : Nat) : Nat := ((2 * r) ^^^ ((r / 128) * 0x71)) % 256

/-- R after n LFSR updates, as a number. -/
def lfsrAfter : Nat → Nat → Nat
  | 0, r => r
  | n + 1, r => lfsrAfter n (lfsrNat r)

/-- Bit b of lane(0,0) is flipped by an IOTA that starts at R = r: b is (1 << j) - 1 for a j of 0 to 6
whose post-update R has bit 1 set (40_permutation.md R105). -/
def iotaFlips (r b : Nat) : Bool :=
  (List.range 7).any fun j => b == 2 ^ j - 1 && (lfsrAfter (j + 1) r).testBit 1

/-- Commands executed one after the other with no transaction in between. -/
def execSeq : List Instr → State → Host.Outcome State Fault Refusal
  | [], s => .next s
  | i :: is, s =>
    match exec i s with
    | .next t => execSeq is t
    | .fault f => .fault f
    | .refused r => .refused r

/-- The commands of the host sequence of 41_sponge.md R141: INIT, one ABSORB for each chunk of the input,
PAD, one SQUEEZE for each block of the output. -/
def stepwiseCommands (s : State) : List Instr :=
  let rB := s.rate.toNat / 8
  .init :: (List.replicate ((s.inlen.toNat + rB - 1) / rB) .absorb ++
    .pad :: List.replicate ((s.outlen.toNat + rB - 1) / rB) .squeeze)

end Sys2Proof.Safety
end

