-- ==== Sys2Proof/Certificates/Slice0/Obligations.lean ====
section
/-! DEFINITION. The statements for the provers, from the numbered rules of spec/. A statement of a
result gives the whole next state, so it is the command's completion and its frame too. -/

open Sys2Proof
open Sys2Proof.Machine
open Sys2Proof.Safety

/-! ## Encoding -/

/-- O1. R79, R73: a word decodes to a command exactly when it is that command's encoding, for all 2^32
words; so decoding an encoded command gives it back, and no word has two meanings. -/
def Obligations.DecodeIffEncode : Prop :=
  ∀ (w : Word) (i : Instr), decode w = .ok i ↔ w = encode i

/-- O2. R73: the 18 words of the opcode map are the legal words, each with its mnemonic. -/
def Obligations.LegalWordsAreTheOpcodeMap : Prop :=
  ∀ (w : Word) (i : Instr), decode w = .ok i ↔ (w, i) ∈ opcodeMap

/-- O3. R74: a word is illegal exactly by the enumeration of the rule; written to CMD it raises ERR_CMD
in every phase, an open invocation included, and nothing else changes. -/
def Obligations.IllegalWordRaisesErrCmd : Prop :=
  ∀ w : Word,
    (illegalWord w → ∀ s : State,
      perform (.wr 32 0x00 w) s =
        .next { s with phase := .error, errcode := .cmd, response := some .ok }) ∧
    (¬illegalWord w → ∃ i : Instr, decode w = .ok i)

/-- O4. R70, R73: one word of each group, written out bit by bit, decodes to the command it stands for. -/
def Obligations.WrittenOutWordsDecode : Prop :=
  decode 0b00000000000000000000000000010010 = .ok .rhopi ∧
  decode 0b00000000000000000000000000010110 = .ok .f1600 ∧
  decode 0b00000000000000000000000000100011 = .ok .squeeze ∧
  decode 0b00000000000000000000000000110001 = .ok .sha3_256 ∧
  decode 0b00000000000000000000000000110100 = .ok .shake128

/-- O5. R39: the eleven offsets of the register map, multiples of 4 from 0x00 to 0x28, each naming one
register; at any other offset there is none. -/
def Obligations.RegisterMapOffsets : Prop :=
  ∀ offset : Nat,
    (∀ reg : Csr, Csr.ofOffset offset = some reg ↔ offset = reg.offset) ∧
    ((∃ reg : Csr, Csr.ofOffset offset = some reg) ↔ offset % 4 = 0 ∧ offset ≤ 0x28)

/-! ## The step -/

/-- O6. R182, R186: when the oldest event is a WR to CMD of a word that decodes to i, the step is exec
of i on the state without that event, and the host gets OK. The list of events and the response are the
model's own fields (log entries 1 and 2). -/
def Obligations.StepRunsDecodedCommand : Prop :=
  ∀ (s t : State) (rest : List HostEvent) (w : Word) (i : Instr),
    s.pending = .transaction (.wr 32 0x00 w) :: rest →
    decode w = .ok i →
    exec i { s with pending := rest } = .next t →
    step s = .next { t with response := some .ok }

/-- O7. The word the host issues next is the one the next step runs, whatever the state (log entry 1:
withFetchWord is the model's load of a command). -/
def Obligations.FetchWordRunsNext : Prop :=
  ∀ (s t : State) (w : Nat) (i : Instr),
    decodeTableWord 32 w = some i → exec i s = .next t →
    step (s.withFetchWord 32 w) = .next { t with response := some .ok }

/-- O8. R224: between commands KSE is idle and keeps all state (log entry 1: no event pending). -/
def Obligations.IdleKeepsAllState : Prop :=
  ∀ s : State, s.pending = [] → step s = .next s

/-- O9. R186, R208: from every state whatever the step performs completes; nothing locks KSE up. Events
are taken in host order, each once (R59). -/
def Obligations.EveryStepCompletesInHostOrder : Prop :=
  ∀ s : State, ∃ t : State, step s = .next t ∧ t.pending = s.pending.tail

/-- O10. R10, R44: the buffer sizes are parameters of the machine, and no step changes them. -/
def Obligations.BufferSizesNeverChange : Prop :=
  ∀ s t : State, step s = .next t → t.params = s.params

/-! ## Reset -/

/-- O11. R230, R42: after a RESET event, between transactions or in the middle of one, every piece of
state holds its reset value whatever it held before, and no byte of IN or OUT is known. The last four
fields are the model's own (log entries 1 to 5). -/
def Obligations.ResetEventGivesResetValues : Prop :=
  ∀ (s : State) (e : HostEvent) (rest : List HostEvent),
    (e = .reset ∨ ∃ t : Transaction, e = .resetDuring t) →
    s.pending = e :: rest →
    ∃ u : State, step s = .next u ∧
      (∀ i, i < 200 → u.lanes.byte i = 0x00) ∧ u.r = 0x01 ∧ u.rnd = 0 ∧
      u.rate = 0 ∧ u.cap = 0 ∧ u.inlen = 0 ∧ u.outlen = 0 ∧ u.sfx = 0x00 ∧
      u.blk = 0 ∧ u.iptr = 0 ∧ u.optr = 0 ∧ u.phase = .idle ∧ u.errcode = .none ∧
      u.inBuf = [] ∧ u.outBuf = [] ∧
      u.params = s.params ∧ u.epoch = s.epoch + 1 ∧ u.pending = rest ∧ u.response = none

/-- O12. R41: the reset state meets the invariant, R41(g) with it, for all buffer sizes. -/
def Obligations.ResetStateMeetsInvariant : Prop :=
  ∀ p : Config.Params, R41Holds (State.resetWith p)

/-- O13. R232: straight after reset INIT and KECCAK raise ERR_PARAM, and a wrapper succeeds when OUT
holds its fixed output length. -/
def Obligations.FirstCommandAfterReset : Prop :=
  ∀ p : Config.Params,
    exec .init (State.resetWith p) =
      .next { State.resetWith p with phase := .error, errcode := .param } ∧
    exec .keccak (State.resetWith p) =
      .next { State.resetWith p with phase := .error, errcode := .param } ∧
    ∀ (i : Instr) (w : Row), row i = some w → (w.outlen.getD 0).toNat ≤ p.outBytes →
      ∃ t : State, exec i (State.resetWith p) = .next t ∧ t.phase = .done ∧ t.errcode = .none ∧
        t.optr = w.outlen.getD 0

/-! ## Invariants -/

/-- O14. R41(b) to (f) with the buffers' canonical form: every step from a state that meets the
invariant gives a state that meets it, whatever the host does. -/
def Obligations.InvariantKeptByEveryStep : Prop :=
  ∀ s t : State, MachineInv s → step s = .next t → MachineInv t

/-- O15. R106: R starts at 0x01, and no step makes a nonzero R zero. -/
def Obligations.LfsrRegisterNeverZero : Prop :=
  (∀ p : Config.Params, (State.resetWith p).r ≠ 0) ∧
  ∀ s t : State, s.r ≠ 0 → step s = .next t → t.r ≠ 0

/-- O16. R182, R185 against R41(g): in phase DONE a WR to OUTLEN is accepted, so OPTR = OUTLEN in
phase DONE is not kept by every step (log entry 6). -/
def Obligations.OutlenWritableWhenDone : Prop :=
  ∀ (s : State) (v : Word), s.phase = .done →
    perform (.wr 32 0x18 v) s = .next { s with outlen := v, response := some .ok }

/-- O17. R56: in a state that meets the invariant every byte an enabled ABSORB, PAD or SQUEEZE touches
exists. -/
def Obligations.EngineAccessesInRange : Prop :=
  ∀ s : State, MachineInv s →
    (enabled .absorb s →
      1 ≤ s.chunkLen ∧ s.chunkLen ≤ s.rB ∧ s.rB ≤ 200 ∧
      s.iptr.toNat + s.chunkLen ≤ s.inlen.toNat ∧ s.inlen.toNat ≤ s.params.inBytes) ∧
    (enabled .pad s → s.blk.toNat ≤ s.rB - 1 ∧ 1 ≤ s.rB ∧ s.rB - 1 ≤ 199) ∧
    (enabled .squeeze s →
      1 ≤ s.blockLen ∧ s.blockLen ≤ s.rB ∧ s.rB ≤ 200 ∧
      s.optr.toNat + s.blockLen ≤ s.outlen.toNat ∧ s.outlen.toNat ≤ s.params.outBytes)

/-! ## Lanes and bytes -/

/-- O18. R22: L[k] is the little-endian number of the bytes S[8k] to S[8k+7], and L[k] <- v writes
byte j with (v >> (8*j)) mod 256 and leaves every other byte of S. -/
def Obligations.LanesAreLittleEndian : Prop :=
  ∀ (L : Lanes) (x y : Fin 5),
    (L.lane x y).toNat =
      ((List.range 8).map fun j => 2 ^ (8 * j) * (L.byte (8 * (x.val + 5 * y.val) + j)).toNat).sum ∧
    ∀ (v : Lane) (i : Nat), i < 200 →
      ((L.setLane x y v).byte i).toNat =
        if i / 8 = x.val + 5 * y.val then v.toNat / 2 ^ (8 * (i % 8)) % 256 else (L.byte i).toNat

/-- O19. R14, R112: ROTL64 wraps modulo 64 and modulo 2^64: bit i of the result is bit i - n mod 64 of
the operand, and a multiple of 64 is a no-op. -/
def Obligations.RotateLeftWraps : Prop :=
  ∀ (v : Lane) (n : Nat),
    (∀ i : Nat, i < 64 → (rotl64 v n).getLsbD i = v.getLsbD ((i + 64 - n % 64) % 64)) ∧
    (n % 64 = 0 → rotl64 v n = v)

/-! ## The permutation commands -/

/-- O20. R108: PINIT sets R = 0x01 and RND = 0; with an invocation open it raises ERR_SEQ. -/
def Obligations.PinitResult : Prop :=
  decode 0x00000010 = .ok .pinit ∧
  ∀ s : State,
    (s.isOpen = false → exec .pinit s = .next { s with r := 0x01, rnd := 0 }) ∧
    (s.isOpen = true → exec .pinit s = .next { s with phase := .error, errcode := .seq })

/-- O21. R101: THETA. -/
def Obligations.ThetaResult : Prop :=
  decode 0x00000011 = .ok .theta ∧
  ∀ s : State,
    (s.isOpen = false →
      ∃ L : Lanes, exec .theta s = .next { s with lanes := L } ∧
        let C : Fin 5 → Lane := fun x =>
          s.lanes.lane x 0 ^^^ s.lanes.lane x 1 ^^^ s.lanes.lane x 2 ^^^ s.lanes.lane x 3 ^^^
            s.lanes.lane x 4
        ∀ x y : Fin 5,
          L.lane x y = s.lanes.lane x y ^^^ (C (x + 4) ^^^ (C (x + 1)).rotateLeft 1)) ∧
    (s.isOpen = true → exec .theta s = .next { s with phase := .error, errcode := .seq })

/-- O22. R103: RHOPI in the two-table form: new lane(y, (2x+3y) mod 5) is old lane(x,y) rotated left by
r(x,y), for all 25 (x,y). -/
def Obligations.RhopiResult : Prop :=
  decode 0x00000012 = .ok .rhopi ∧
  ∀ s : State,
    (s.isOpen = false →
      ∃ L : Lanes, exec .rhopi s = .next { s with lanes := L } ∧
        ∀ x y : Fin 5,
          L.lane y (2 * x + 3 * y) = (s.lanes.lane x y).rotateLeft (rhoOffset x y)) ∧
    (s.isOpen = true → exec .rhopi s = .next { s with phase := .error, errcode := .seq })

/-- O23. R104: CHI, bit by bit. -/
def Obligations.ChiResult : Prop :=
  decode 0x00000013 = .ok .chi ∧
  ∀ s : State,
    (s.isOpen = false →
      ∃ L : Lanes, exec .chi s = .next { s with lanes := L } ∧
        ∀ (x y : Fin 5) (b : Nat), b < 64 →
          (L.lane x y).getLsbD b =
            ((s.lanes.lane x y).getLsbD b ^^
              (!(s.lanes.lane (x + 1) y).getLsbD b && (s.lanes.lane (x + 2) y).getLsbD b))) ∧
    (s.isOpen = true → exec .chi s = .next { s with phase := .error, errcode := .seq })

/-- O24. R105, R106: IOTA runs seven LFSR updates and flips only the bits (1 << j) - 1 of lane(0,0)
whose post-update R has bit 1 set. -/
def Obligations.IotaResult : Prop :=
  decode 0x00000014 = .ok .iota ∧
  ∀ s : State,
    (s.isOpen = false →
      ∃ L : Lanes,
        exec .iota s =
          .next { s with lanes := L, r := BitVec.ofNat 8 (lfsrAfter 7 s.r.toNat) } ∧
        (∀ x y : Fin 5, ¬(x = 0 ∧ y = 0) → L.lane x y = s.lanes.lane x y) ∧
        ∀ b : Nat, b < 64 →
          (L.lane 0 0).getLsbD b = ((s.lanes.lane 0 0).getLsbD b ^^ iotaFlips s.r.toNat b)) ∧
    (s.isOpen = true → exec .iota s = .next { s with phase := .error, errcode := .seq })

/-- O25. R107: the IOTA of round n of a permutation that started with PINIT xors RC[n] into lane(0,0),
and leaves R as the table says. -/
def Obligations.IotaRoundConstants : Prop :=
  ∀ (s : State) (n : Nat), n < 24 → s.isOpen = false → s.r = roundR.getD n 0 →
    exec .iota s =
      .next { s with
        lanes := s.lanes.setLane 0 0 (s.lanes.lane 0 0 ^^^ roundConstants.getD n 0)
        r := roundR.getD (n + 1) 0 }

/-- O26. R109: ROUND is THETA, RHOPI, CHI, IOTA in order with RND advanced by 1; with RND = 24 or an
invocation open it raises ERR_SEQ. -/
def Obligations.RoundResult : Prop :=
  decode 0x00000015 = .ok .round ∧
  ∀ s : State,
    (s.isOpen = false → s.rnd.toNat < 24 →
      ∃ u : State, execSeq [.theta, .rhopi, .chi, .iota] s = .next u ∧
        exec .round s = .next { u with rnd := s.rnd + 1 } ∧ u.rnd = s.rnd) ∧
    (s.isOpen = true ∨ s.rnd = 24 →
      exec .round s = .next { s with phase := .error, errcode := .seq })

/-- O27. R110, R114: F1600 is PINIT and 24 ROUNDs, writes only S, R and RND, and leaves R = 0x8E and
RND = 24 whatever S was. -/
def Obligations.F1600IsTwentyFourRounds : Prop :=
  decode 0x00000016 = .ok .f1600 ∧
  ∀ s : State,
    (s.isOpen = false →
      ∃ L : Lanes,
        exec .f1600 s = .next { s with lanes := L, r := 0x8E, rnd := 24 } ∧
        execSeq (.pinit :: List.replicate 24 .round) s =
          .next { s with lanes := L, r := 0x8E, rnd := 24 }) ∧
    (s.isOpen = true → exec .f1600 s = .next { s with phase := .error, errcode := .seq })

/-- O28. R100: a permutation command that is not enabled changes nothing but PHASE and ERRCODE, and one
that succeeds changes nothing but S, R and RND: never PHASE, ERRCODE, BLK, IPTR, OPTR, the parameter
registers, IN or OUT. -/
def Obligations.PermutationCommandsKeepTheRest : Prop :=
  ∀ (i : Instr) (s : State), isPermutation i = true →
    (s.phase = .absorb ∨ s.phase = .squeeze →
      exec i s = .next { s with phase := .error, errcode := .seq }) ∧
    (s.phase = .idle ∨ s.phase = .done ∨ s.phase = .error → s.rnd.toNat < 24 ∨ i ≠ .round →
      ∃ t : State, exec i s = .next t ∧
        t = { s with lanes := t.lanes, r := t.r, rnd := t.rnd })

/-! ## The sponge commands -/

/-- O29. R131: the legal RATE values are 8, 16, ..., 1600 with CAP = 1600 - RATE; the first failing check
in the order of the rule decides the error; INIT, KECCAK and every wrapper make the check and raise it. -/
def Obligations.CheckParamsDecides : Prop :=
  ∀ s : State,
    (checkParams s = none ↔
      s.outlen.toNat ≤ s.params.outBytes ∧ s.inlen.toNat ≤ s.params.inBytes ∧
      ∃ k : Nat, 1 ≤ k ∧ k ≤ 200 ∧ s.rate.toNat = 8 * k ∧ s.cap.toNat = 1600 - 8 * k) ∧
    (∀ c : ErrCode, checkParams s = some c ↔ raisesParam c s) ∧
    ∀ (i : Instr) (c : ErrCode), startsInvocation i = true → checkParams (loaded i s) = some c →
      exec i s = .next { loaded i s with phase := .error, errcode := c }

/-- O30. R132: INIT checks, then zeroes S, BLK, IPTR, OPTR, clears the error and opens an invocation,
from every phase; on failure only PHASE and ERRCODE change. -/
def Obligations.InitResult : Prop :=
  decode 0x00000020 = .ok .init ∧
  ∀ s : State,
    (LegalParams s →
      ∃ L : Lanes, (∀ i, i < 200 → L.byte i = 0x00) ∧
        exec .init s =
          .next { s with
            lanes := L, blk := 0, iptr := 0, optr := 0, errcode := .none, phase := .absorb }) ∧
    ∀ c : ErrCode, raisesParam c s →
      exec .init s = .next { s with phase := .error, errcode := c }

/-- O31. R133: ABSORB xors one chunk of n bytes into S[0..n-1], advances IPTR by n, and permutes exactly
when the chunk is full; otherwise BLK is the chunk's length. -/
def Obligations.AbsorbResult : Prop :=
  decode 0x00000021 = .ok .absorb ∧
  ∀ s : State,
    (s.phase = .absorb → s.iptr.toNat < s.inlen.toNat →
      ∃ L : Lanes,
        let rB := s.rate.toNat / 8
        let n := min (s.inlen.toNat - s.iptr.toNat) rB
        (∀ i, i < 200 →
          L.byte i =
            if i < n then s.lanes.byte i ^^^ s.inByte (s.iptr.toNat + i) else s.lanes.byte i) ∧
        (n = rB → exec .absorb s =
          .next { s with
            lanes := keccakF L, r := 0x8E, rnd := 24, blk := 0
            iptr := BitVec.ofNat 32 (s.iptr.toNat + n) }) ∧
        (n ≠ rB → exec .absorb s =
          .next { s with
            lanes := L, blk := BitVec.ofNat 8 n
            iptr := BitVec.ofNat 32 (s.iptr.toNat + n) })) ∧
    (¬(s.phase = .absorb ∧ s.iptr.toNat < s.inlen.toNat) →
      exec .absorb s = .next { s with phase := .error, errcode := .seq })

/-- O32. R134: PAD xors the suffix at BLK, permutes once more when the suffix's top bit lands on the last
byte of the block, xors 0x80 at rB - 1, permutes, and goes to SQUEEZE, or to DONE for OUTLEN = 0. -/
def Obligations.PadResult : Prop :=
  decode 0x00000022 = .ok .pad ∧
  ∀ s : State,
    (s.phase = .absorb → s.iptr = s.inlen → 8 ≤ s.rate.toNat →
      ∃ L1 L2 L3 : Lanes,
        let rB := s.rate.toNat / 8
        (∀ i, i < 200 →
          L1.byte i = if i = s.blk.toNat then s.lanes.byte i ^^^ s.sfx else s.lanes.byte i) ∧
        L2 = (if s.sfx.getLsbD 7 = true ∧ s.blk.toNat = rB - 1 then keccakF L1 else L1) ∧
        (∀ i, i < 200 →
          L3.byte i = if i = rB - 1 then L2.byte i ^^^ 0x80 else L2.byte i) ∧
        exec .pad s =
          .next { s with
            lanes := keccakF L3, r := 0x8E, rnd := 24
            phase := if 0 < s.outlen.toNat then .squeeze else .done }) ∧
    (¬(s.phase = .absorb ∧ s.iptr = s.inlen) →
      exec .pad s = .next { s with phase := .error, errcode := .seq })

/-- O33. R135: SQUEEZE copies one block of n bytes to OUT[OPTR..OPTR+n-1], advances OPTR by n, and
permutes only if more output remains; otherwise the phase is DONE. -/
def Obligations.SqueezeResult : Prop :=
  decode 0x00000023 = .ok .squeeze ∧
  ∀ s : State,
    (s.phase = .squeeze →
      ∃ t : State, exec .squeeze s = .next t ∧
        let n := min (s.outlen.toNat - s.optr.toNat) (s.rate.toNat / 8)
        (∀ a : Nat,
          t.outByte a =
            if s.optr.toNat ≤ a ∧ a < s.optr.toNat + n then s.lanes.byte (a - s.optr.toNat)
            else s.outByte a) ∧
        t.optr.toNat = s.optr.toNat + n ∧
        (t.optr.toNat < s.outlen.toNat →
          t = { s with
            lanes := keccakF s.lanes, r := 0x8E, rnd := 24, optr := t.optr, outBuf := t.outBuf }) ∧
        (¬t.optr.toNat < s.outlen.toNat →
          t = { s with phase := .done, optr := t.optr, outBuf := t.outBuf })) ∧
    (s.phase ≠ .squeeze → exec .squeeze s = .next { s with phase := .error, errcode := .seq })

/-- O34. R140, R136, R144: with legal parameters KECCAK ends in DONE from every phase,
OUT[0..OUTLEN-1] is Sponge(RATE, CAP, IN[0..INLEN-1], SFX, OUTLEN), no other byte of OUT is written,
and every register is as the rules say. -/
def Obligations.KeccakComputesSponge : Prop :=
  decode 0x00000024 = .ok .keccak ∧
  ∀ s : State, LegalParams s →
    ∃ t : State, exec .keccak s = .next t ∧
      t = { s with
        lanes := t.lanes, r := 0x8E, rnd := 24
        blk := BitVec.ofNat 8 (s.inlen.toNat % (s.rate.toNat / 8))
        iptr := s.inlen, optr := s.outlen, phase := .done, errcode := .none
        outBuf := t.outBuf } ∧
      let Z := sponge s.rate.toNat s.cap.toNat s.inputBytes s.sfx s.outlen.toNat
      Z.length = s.outlen.toNat ∧
      ∀ a : Nat, t.outByte a = if a < s.outlen.toNat then Z.getD a 0 else s.outByte a

/-- O35. R141: the sequence INIT, ABSORB for each chunk, PAD, SQUEEZE for each block, with nothing in
between, leaves every piece of state exactly as the single command KECCAK does from the same start. -/
def Obligations.StepwiseEqualsWhole : Prop :=
  ∀ s : State, LegalParams s →
    ∃ t : State, execSeq (stepwiseCommands s) s = .next t ∧ exec .keccak s = .next t ∧ t.phase = .done

/-- O36. R142: the number of permutations in one successful invocation. -/
def Obligations.PermutationCount : Prop :=
  ∀ s : State, LegalParams s →
    let rB := s.rate.toNat / 8
    keccakPermutes s =
      s.inlen.toNat / rB + 1 +
      (if s.sfx.getLsbD 7 = true ∧ s.inlen.toNat % rB = rB - 1 then 1 else 0) +
      ((s.outlen.toNat + rB - 1) / rB - 1)

/-- O37. R143: the shorter output is a beginning of the longer one: of the sponge function, and of what
KECCAK, SHAKE128 and SHAKE256 write to OUT. -/
def Obligations.ShorterOutputIsABeginning : Prop :=
  (∀ (rate cap : Nat) (M : List Byte) (sfx : Byte) (n m : Nat), 8 ≤ rate → n ≤ m →
    sponge rate cap M sfx n = (sponge rate cap M sfx m).take n) ∧
  ∀ (i : Instr) (s : State) (n m : Word), i ∈ [.keccak, .shake128, .shake256] →
    n.toNat ≤ m.toNat → LegalParams (loaded i { s with outlen := m }) →
    ∃ t u : State,
      exec i { s with outlen := n } = .next t ∧ exec i { s with outlen := m } = .next u ∧
      t.phase = .done ∧ u.phase = .done ∧ ∀ a, a < n.toNat → t.outByte a = u.outByte a

/-! ## The wrapper commands -/

/-- O38. R161 to R168, R160: each wrapper, from every phase, loads its row and computes the sponge
function of the row on IN[0..INLEN-1]; the fixed output length for SHA3, OUTLEN as the host wrote it for
SHAKE. -/
def Obligations.WrapperComputesSponge : Prop :=
  ∀ (i : Instr) (w : Row) (s : State), row i = some w →
    exec i s = exec .keccak (w.load s) ∧
    let n : Word := w.outlen.getD s.outlen
    n.toNat ≤ s.params.outBytes → s.inlen.toNat ≤ s.params.inBytes →
    ∃ t : State, exec i s = .next t ∧
      t = { s with
        rate := w.rate, cap := w.cap, sfx := w.sfx, outlen := n
        lanes := t.lanes, r := 0x8E, rnd := 24
        blk := BitVec.ofNat 8 (s.inlen.toNat % (w.rate.toNat / 8))
        iptr := s.inlen, optr := n, phase := .done, errcode := .none
        outBuf := t.outBuf } ∧
      ∀ a : Nat, t.outByte a =
        if a < n.toNat then
          (sponge w.rate.toNat w.cap.toNat s.inputBytes w.sfx n.toNat).getD a 0
        else s.outByte a

/-- O39. R166: a wrapper that fails raises ERR_LEN or ERR_INLEN and nothing else, its row already loaded;
S, BLK, IPTR, OPTR, OUT are untouched. -/
def Obligations.WrapperErrorsKeepTheLoads : Prop :=
  ∀ (i : Instr) (w : Row) (s : State), row i = some w →
    let n : Word := w.outlen.getD s.outlen
    let l : State := { s with rate := w.rate, cap := w.cap, sfx := w.sfx, outlen := n }
    (n.toNat > s.params.outBytes →
      exec i s = .next { l with phase := .error, errcode := .len }) ∧
    (n.toNat ≤ s.params.outBytes → s.inlen.toNat > s.params.inBytes →
      exec i s = .next { l with phase := .error, errcode := .inlen }) ∧
    ∀ t : State, exec i s = .next t → t.phase = .error →
      (t.errcode = .len ∧ n.toNat > s.params.outBytes) ∨
      (t.errcode = .inlen ∧ s.inlen.toNat > s.params.inBytes)

/-- O40. R169: after a SHA3 command OUTLEN = OPTR = its fixed length; two runs of a wrapper with the same
INLEN, input bytes and, for SHAKE, OUTLEN write the same bytes to OUT, whatever the rest of the states. -/
def Obligations.WrapperIsDeterministic : Prop :=
  ∀ (i : Instr) (w : Row) (s s' : State), row i = some w →
    s.inlen = s'.inlen → (∀ a, a < s.inlen.toNat → s.inByte a = s'.inByte a) →
    (w.outlen = none → s.outlen = s'.outlen) →
    LegalParams (w.load s) → LegalParams (w.load s') →
    ∃ t t' : State, exec i s = .next t ∧ exec i s' = .next t' ∧
      t.phase = .done ∧ t'.phase = .done ∧ t.outlen = w.outlen.getD s.outlen ∧ t.optr = t.outlen ∧
      t'.optr = t.optr ∧
      ∀ a, a < t.optr.toNat → t.outByte a = t'.outByte a

/-! ## Errors and the phase machine -/

/-- O41. R203, R202, R205: a command raises an error exactly under the causes of the table, in its
order; then only PHASE and ERRCODE change, beyond a wrapper's own loads. -/
def Obligations.ErrorsArePrecise : Prop :=
  ∀ (i : Instr) (c : ErrCode) (s : State), raises i c s →
    exec i s = .next { loaded i s with phase := .error, errcode := c }

/-- O42. R200, R202: without such a cause no command raises: PHASE is ERROR afterwards only where a
permutation command found it so, with the code as it was. -/
def Obligations.NoErrorWithoutCause : Prop :=
  ∀ (i : Instr) (s : State), (∀ c : ErrCode, ¬raises i c s) →
    ∃ t : State, exec i s = .next t ∧
      (t.phase = .error → isPermutation i = true ∧ s.phase = .error ∧ t.errcode = s.errcode)

/-- O43. R139: the phase after each command issued in each phase is the one of the table, E:SEQ being
Err(ERR_SEQ); an illegal word gives ERROR with ERR_CMD. -/
def Obligations.PhaseMachineTable : Prop :=
  (∀ (i : Instr) (s : State), ∃ t : State, exec i s = .next t ∧ phaseAfter i s t) ∧
  ∀ (w : Word) (s : State), illegalWord w →
    ∃ t : State, writeCmd w s = .next t ∧ t.phase = .error ∧ t.errcode = .cmd

/-- O44. R207: phase ERROR is left only by RESET or by a successful command that starts an invocation. -/
def Obligations.ErrorPhaseLeftOnlyByNewInvocation : Prop :=
  ∀ s t : State, s.phase = .error → step s = .next t → t.phase ≠ .error →
    ∃ rest : List HostEvent,
      s.pending = .reset :: rest ∨ (∃ x : Transaction, s.pending = .resetDuring x :: rest) ∨
      ∃ i : Instr, startsInvocation i = true ∧ s.pending = issue i :: rest ∧
        LegalParams (loaded i s) ∧ t.errcode = .none

/-- O45. R65: the engine never writes IN and never reads OUT: whatever OUT holds, a command leaves the
same state but for OUT, and writes the same bytes to the same offsets of OUT. -/
def Obligations.EngineDirectionOfAccess : Prop :=
  ∀ (i : Instr) (s t : State), exec i s = .next t →
    t.inBuf = s.inBuf ∧
    ∃ written : Nat → Option Byte, ∀ o : Memory, ∃ t' : State,
      exec i { s with outBuf := o } = .next t' ∧ t' = { t with outBuf := t'.outBuf } ∧
      ∀ a : Nat, t'.outByte a = (written a).getD (State.outByte { s with outBuf := o } a)

/-! ## Host transactions -/

/-- O46. R184: a transaction is REFUSED exactly when one of the clauses (a) to (f) holds, and then no
KSE state changes (the response is the model's field, log entry 2). -/
def Obligations.RefusedExactlyWhen : Prop :=
  ∀ (x : Transaction) (s : State),
    (refusedBy x s → perform x s = .next { s with response := some .refused }) ∧
    (¬refusedBy x s → ∃ t : State, perform x s = .next t ∧ t.response ≠ some .refused)

/-- O47. R184: with no invocation open a transaction is accepted exactly when it is well formed. -/
def Obligations.WellFormedExactlyAccepted : Prop :=
  ∀ (x : Transaction) (s : State), s.isOpen = false →
    ∃ t : State, perform x s = .next t ∧
      (x.wf s.params = true ↔ t.response ≠ some .refused)

/-- O48. R185: while an invocation is open the host cannot write RATE, CAP, SFX, INLEN, OUTLEN, a byte of
S or a byte of IN; the write is REFUSED and nothing changes. -/
def Obligations.WriteLock : Prop :=
  ∀ (s : State), (s.phase = .absorb ∨ s.phase = .squeeze) →
    (∀ (width : Nat) (reg : Csr) (v : Word), reg ∈ [.rate, .cap, .sfx, .inlen, .outlen] →
      perform (.wr width reg.offset v) s = .next { s with response := some .refused }) ∧
    ∀ (width offset : Nat) (space : Space) (v : Byte), space ∈ [.stateBytes, .input] →
      perform (.wrb space width offset v) s = .next { s with response := some .refused }

/-- O49. R57: a read has no side effect on KSE, and may be repeated with the same result. -/
def Obligations.ReadsHaveNoSideEffect : Prop :=
  ∀ (x : Transaction) (s : State),
    ((∃ width offset : Nat, x = .rd width offset) ∨
      ∃ (space : Space) (width offset : Nat), x = .rdb space width offset) →
    ∃ resp : Response,
      perform x s = .next { s with response := some resp } ∧
      ∀ before : Option Response,
        perform x { s with response := before } = .next { s with response := some resp }

/-- O50. R181: the value RD returns at each of the eleven offsets. -/
def Obligations.RegisterReadValues : Prop :=
  ∀ s : State,
    let reads (offset value : Nat) : Prop :=
      perform (.rd 32 offset) s =
        .next { s with response := some (.okWord (BitVec.ofNat 32 value)) }
    reads 0x00 0 ∧
    reads 0x04 (s.phase.code.toNat + 16 * s.errcode.code.toNat) ∧
    reads 0x08 s.rate.toNat ∧ reads 0x0C s.cap.toNat ∧ reads 0x10 s.sfx.toNat ∧
    reads 0x14 s.inlen.toNat ∧ reads 0x18 s.outlen.toNat ∧ reads 0x1C s.blk.toNat ∧
    reads 0x20 s.iptr.toNat ∧ reads 0x24 s.optr.toNat ∧
    reads 0x28 (s.rnd.toNat + 256 * s.r.toNat)

/-- O51. R37, R201: the encodings of PHASE and ERRCODE that STATUS shows. -/
def Obligations.StatusEncodings : Prop :=
  Phase.idle.code = 0 ∧ Phase.absorb.code = 1 ∧ Phase.squeeze.code = 2 ∧ Phase.done.code = 3 ∧
  Phase.error.code = 4 ∧ ErrCode.none.code = 0 ∧ ErrCode.param.code = 1 ∧ ErrCode.len.code = 2 ∧
  ErrCode.inlen.code = 3 ∧ ErrCode.cmd.code = 4 ∧ ErrCode.seq.code = 5

/-- O52. R182: a WR to a parameter register with no invocation open stores the value whole, SFX its bits
[7:0], and changes nothing else. -/
def Obligations.ParameterWrites : Prop :=
  ∀ (s : State) (v : Word), s.isOpen = false →
    perform (.wr 32 0x08 v) s = .next { s with rate := v, response := some .ok } ∧
    perform (.wr 32 0x0C v) s = .next { s with cap := v, response := some .ok } ∧
    perform (.wr 32 0x10 v) s =
      .next { s with sfx := BitVec.ofNat 8 (v.toNat % 256), response := some .ok } ∧
    perform (.wr 32 0x14 v) s = .next { s with inlen := v, response := some .ok } ∧
    perform (.wr 32 0x18 v) s = .next { s with outlen := v, response := some .ok }

/-- O53. R183: WRB with no invocation open writes the one byte of S or of IN, no other byte and nothing
else. -/
def Obligations.ByteWrites : Prop :=
  ∀ (s : State) (offset : Nat) (v : Byte), s.isOpen = false →
    (offset < 200 →
      ∃ L : Lanes,
        perform (.wrb .stateBytes 8 offset v) s =
          .next { s with lanes := L, response := some .ok } ∧
        ∀ a, a < 200 → L.byte a = if a = offset then v else s.lanes.byte a) ∧
    (offset < s.params.inBytes →
      ∃ t : State,
        perform (.wrb .input 8 offset v) s = .next t ∧
        t = { s with inBuf := t.inBuf, response := some .ok } ∧
        ∀ a, t.inByte a = if a = offset then v else s.inByte a)

/-- O54. R183: RDB returns the byte of the space at the offset, in every phase. -/
def Obligations.ByteReadValues : Prop :=
  ∀ (s : State) (offset : Nat),
    (offset < 200 → perform (.rdb .stateBytes 8 offset) s =
      .next { s with response := some (.okByte (s.lanes.byte offset)) }) ∧
    (offset < s.params.inBytes → perform (.rdb .input 8 offset) s =
      .next { s with response := some (.okByte (s.inByte offset)) }) ∧
    (offset < s.params.outBytes → perform (.rdb .output 8 offset) s =
      .next { s with response := some (.okByte (s.outByte offset)) })

/-- O55. R78(b): LOAD IN writes its bytes to IN from offset 0 and their count to INLEN, and nothing
else. -/
def Obligations.LoadInWritesTheInput : Prop :=
  ∀ (s : State) (bytes : List Byte), s.isOpen = false →
    bytes.length ≤ s.params.inBytes → s.params.legal = true →
    ∃ t : State,
      Host.Core.run Sys2Proof.core (bytes.length + 1)
        { s with pending := (AsmLine.loadIn bytes).events } = .next t ∧
      t = { s with
        inBuf := t.inBuf, inlen := BitVec.ofNat 32 bytes.length, pending := []
        response := some .ok } ∧
      ∀ a, t.inByte a = if a < bytes.length then bytes.getD a 0 else s.inByte a

/-! ## Reset values -/

/-- O56. R42: the value of every piece of state after reset, for all buffer sizes. That an unspecified byte
of IN or OUT is a free value at the epoch, the last two clauses, is the model's choice (log entry 4). -/
def Obligations.ResetValues : Prop :=
  ∀ p : Config.Params, let s := State.resetWith p
    (∀ i, i < 200 → s.lanes.byte i = 0x00) ∧ s.r = 0x01 ∧ s.rnd = 0 ∧
    s.rate = 0 ∧ s.cap = 0 ∧ s.inlen = 0 ∧ s.outlen = 0 ∧ s.sfx = 0x00 ∧
    s.blk = 0 ∧ s.iptr = 0 ∧ s.optr = 0 ∧ s.phase = .idle ∧ s.errcode = .none ∧
    (∀ i, s.inByte i = Config.freeInByte s.epoch i) ∧
    ∀ i, s.outByte i = Config.freeOutByte s.epoch i

/-! ## The output is complete in phase DONE -/

/-- O57. R41(g) with (b) to (f): every step from a state in which R41 holds gives one in which it holds,
but for the one transaction with which R182 and R185 let the host end R41(g), a WR of another OUTLEN in
phase DONE, which changes OUTLEN only (log entry 6). -/
def Obligations.R41KeptButByOutlenWrite : Prop :=
  ∀ s t : State, R41Holds s → step s = .next t → R41Holds t ∨ RewritesOutlenWhenDone s t

/-- O58. R41(g), R134, R135, R136: phase DONE is entered only with the whole output produced, whatever
the host wrote before. -/
def Obligations.DoneEnteredWithWholeOutput : Prop :=
  ∀ s t : State, MachineInv s → s.phase ≠ .done → step s = .next t → t.phase = .done → t.optr = t.outlen

/-- O59. R41(g), R36, R234: in phase DONE, OPTR stays the output length the invocation ended with (O58)
and OUT stays as it is, whatever the host does, a write of OUTLEN too, until a command that starts a new
invocation has produced the whole of its output. -/
def Obligations.DoneKeepsOutputUntilNextInvocation : Prop :=
  ∀ s t : State, MachineInv s → s.phase = .done → step s = .next t → t.phase = .done →
    (t.optr = s.optr ∧ ∀ a : Nat, t.outByte a = s.outByte a) ∨
    ∃ (w : Word) (rest : List HostEvent) (i : Instr),
      s.pending = .transaction (.wr 32 0x00 w) :: rest ∧ decode w = .ok i ∧
      startsInvocation i = true ∧ t.optr = t.outlen
end

