-- ==== Sys2Proof/Laws/Decode.lean ====
section
/-! SUPPORT. A word is its three fields, and the decoder on each field value. -/

namespace Sys2Proof

/-- A word is ZERO, GRP and FN put together (30_encoding.md R70). -/
theorem word_eq_fields (w : Word) : w = (zeroField w ++ grpField w) ++ fnField w := by
  apply BitVec.eq_of_getLsbD_eq
  intro i hi
  rw [BitVec.getLsbD_append, BitVec.getLsbD_append]
  simp only [zeroField, grpField, fnField, BitVec.getLsbD_extractLsb']
  by_cases h4 : i < 4
  · simp [h4]
  · by_cases h8 : i - 4 < 4
    · have : 4 + (i - 4) = i := by omega
      simp [h4, h8, this]
    · have h1 : 8 + (i - 4 - 4) = i := by omega
      have h2 : i - 4 - 4 < 24 := by omega
      simp [h4, h8, h1, h2]

/-- What a decoded word's group and function are: those of the command (30_encoding.md R73). -/
theorem decodeGroup_ok {g f : BitVec 4} {i : Instr} (h : decodeGroup g.toNat f.toNat = .ok i) :
    (g, f) = i.grpFn := by
  have all : ∀ g f : BitVec 4,
      ((decodeGroup g.toNat f.toNat).toOption.all fun i => (g, f) == i.grpFn) = true := by
    decide +kernel
  have := all g f
  rw [h] at this
  simpa [Except.toOption] using this

/-- Which group and function values are no command (30_encoding.md R74). -/
theorem decodeGroup_isOk (g f : BitVec 4) :
    (decodeGroup g.toNat f.toNat).toBool = false ↔
      g = 0 ∨ 4 ≤ g.toNat ∨ (g = 1 ∧ 7 ≤ f.toNat) ∨ (g = 2 ∧ 5 ≤ f.toNat) ∨
      (g = 3 ∧ 6 ≤ f.toNat) := by
  revert g f
  decide +kernel

theorem Csr.ofOffset_offset (reg : Csr) : Csr.ofOffset reg.offset = some reg := by
  cases reg <;> rfl

end Sys2Proof
end

