-- ==== Sys2Proof/Laws/Lanes.lean ====
section
/-! SUPPORT. The laws of the lane matrix and of its byte view (10_state.md R22 to R24). -/

namespace Sys2Proof.Machine

@[simp] theorem Five.get_ofFn {α : Type} (f : Fin 5 → α) (i : Fin 5) : (Five.ofFn f).get i = f i := by
  match i with
  | 0 => rfl
  | 1 => rfl
  | 2 => rfl
  | 3 => rfl
  | 4 => rfl

theorem Five.ext_get {α : Type} {v w : Five α} (h : ∀ i, v.get i = w.get i) : v = w := by
  cases v
  cases w
  have h0 := h 0
  have h1 := h 1
  have h2 := h 2
  have h3 := h 3
  have h4 := h 4
  simp_all [Five.get]

theorem Five.get_set {α : Type} (v : Five α) (i j : Fin 5) (a : α) :
    (v.set i a).get j = if j = i then a else v.get j := by
  fin_cases i <;> fin_cases j <;> rfl

@[simp] theorem Lanes.lane_tabulate (f : Fin 5 → Fin 5 → Lane) (x y : Fin 5) :
    (Lanes.tabulate f).lane x y = f x y := by
  simp [Lanes.tabulate, Lanes.lane]

theorem Lanes.lane_setLane (L : Lanes) (x y x' y' : Fin 5) (v : Lane) :
    (L.setLane x y v).lane x' y' = if x' = x ∧ y' = y then v else L.lane x' y' := by
  simp only [Lanes.setLane, Lanes.lane, Five.get_set]
  by_cases hy : y' = y
  · subst hy
    simp [Five.get_set]
  · simp [hy]

theorem Lanes.ext_lane {L M : Lanes} (h : ∀ x y, L.lane x y = M.lane x y) : L = M :=
  Five.ext_get fun y => Five.ext_get fun x => h x y

@[simp] theorem Lanes.lane_zero (x y : Fin 5) : Lanes.zero.lane x y = 0 := by
  fin_cases x <;> fin_cases y <;> rfl

/-- Bit b of byte j of a lane is bit 8j + b of the lane. -/
theorem getLsbD_laneByte (v : Lane) (j b : Nat) (hb : b < 8) :
    (laneByte v j).getLsbD b = v.getLsbD (8 * j + b) := by
  simp [laneByte, hb]

theorem getLsbD_ff (i : Nat) : (0xFF : Lane).getLsbD i = decide (i < 8) := by
  by_cases h : i < 64
  · have all : ∀ b : Fin 64, (0xFF : Lane).getLsbD b.val = decide (b.val < 8) := by decide
    exact all ⟨i, h⟩
  · rw [BitVec.getLsbD_of_ge _ _ (by omega), decide_eq_false (by omega)]

theorem getLsbD_byteMask (k i : Nat) (hi : i < 64) :
    ((0xFF : Lane) <<< k).getLsbD i = (decide (k ≤ i) && decide (i < k + 8)) := by
  rw [BitVec.getLsbD_shiftLeft, getLsbD_ff]
  by_cases h : i < k
  · simp [h, show ¬ k ≤ i by omega]
  · have h' : (i - k < 8) = (i < k + 8) := by
      apply propext
      omega
    simp [hi, h, show k ≤ i by omega, h']

theorem laneByte_setLaneByte (v : Lane) (j k : Nat) (b : Byte) (hj : j < 8) (hk : k < 8) :
    laneByte (setLaneByte v j b) k = if k = j then b else laneByte v k := by
  apply BitVec.eq_of_getLsbD_eq
  intro i hi
  have hb : 8 * k + i < 64 := by omega
  rw [getLsbD_laneByte _ _ _ hi, setLaneByte, BitVec.getLsbD_or, BitVec.getLsbD_and,
    BitVec.getLsbD_not, getLsbD_byteMask _ _ hb, BitVec.getLsbD_shiftLeft, BitVec.getLsbD_setWidth]
  by_cases h : k = j
  · subst h
    have h4 : 8 * k + i - 8 * k = i := by omega
    simp only [h4, hb, show 8 * k ≤ 8 * k + i by omega, show 8 * k + i < 8 * k + 8 by omega,
      show ¬(8 * k + i < 8 * k) by omega, show i < 64 by omega]
    simp
  · rw [if_neg h, getLsbD_laneByte _ _ _ hi]
    by_cases hlt : k < j
    · simp only [hb, show ¬(8 * j ≤ 8 * k + i) by omega, show 8 * k + i < 8 * j by omega]
      simp
    · have h4 : b.getLsbD (8 * k + i - 8 * j) = false := BitVec.getLsbD_of_ge _ _ (by omega)
      simp only [hb, show ¬(8 * k + i < 8 * j + 8) by omega, h4]
      simp

/-- A lane is known by its eight bytes. -/
theorem lane_ext_bytes {v w : Lane} (h : ∀ j, j < 8 → laneByte v j = laneByte w j) : v = w := by
  apply BitVec.eq_of_getLsbD_eq
  intro i hi
  have hb := congrArg (fun b => BitVec.getLsbD b (i % 8)) (h (i / 8) (by omega))
  simp only [getLsbD_laneByte _ _ _ (show i % 8 < 8 by omega)] at hb
  have : 8 * (i / 8) + i % 8 = i := by omega
  simpa [this] using hb

theorem laneCol_laneRow_inj {k l : Nat} (hk : k < 25) (hl : l < 25)
    (hc : laneCol k = laneCol l) (hr : laneRow k = laneRow l) : k = l := by
  have h1 := congrArg Fin.val hc
  have h2 := congrArg Fin.val hr
  simp only [laneCol, laneRow, Fin.ofNat] at h1 h2
  omega

theorem laneCol_of (x y : Fin 5) : laneCol (x.val + 5 * y.val) = x := by
  apply Fin.ext
  simp only [laneCol, Fin.ofNat]
  omega

theorem laneRow_of (x y : Fin 5) : laneRow (x.val + 5 * y.val) = y := by
  apply Fin.ext
  simp only [laneRow, Fin.ofNat]
  omega

/-- Byte j of lane(x,y) is byte 8*(x + 5*y) + j of S (10_state.md R22). -/
theorem Lanes.byte_of_lane (L : Lanes) (x y : Fin 5) (j : Nat) (hj : j < 8) :
    L.byte (8 * (x.val + 5 * y.val) + j) = laneByte (L.lane x y) j := by
  have h1 : 8 * (x.val + 5 * y.val) + j < 200 := by omega
  have h2 : (8 * (x.val + 5 * y.val) + j) / 8 = x.val + 5 * y.val := by omega
  have h3 : (8 * (x.val + 5 * y.val) + j) % 8 = j := by omega
  simp only [Lanes.byte, if_pos h1, h2, h3, laneCol_of, laneRow_of]

/-- S is known by its 200 bytes. -/
theorem Lanes.ext_byte {L M : Lanes} (h : ∀ i, i < 200 → L.byte i = M.byte i) : L = M := by
  apply Lanes.ext_lane
  intro x y
  apply lane_ext_bytes
  intro j hj
  have := h (8 * (x.val + 5 * y.val) + j) (by omega)
  rwa [Lanes.byte_of_lane _ _ _ _ hj, Lanes.byte_of_lane _ _ _ _ hj] at this

theorem Lanes.byte_ge (L : Lanes) {i : Nat} (h : 200 ≤ i) : L.byte i = 0 := by
  simp [Lanes.byte, show ¬ i < 200 by omega]

/-- Everything a byte write of S does. -/
theorem Lanes.byte_setByte (L : Lanes) (i j : Nat) (b : Byte) :
    (L.setByte i b).byte j = if j = i ∧ i < 200 then b else L.byte j := by
  unfold Lanes.setByte
  by_cases hi : i < 200
  · rw [if_pos hi]
    by_cases hj : j < 200
    · simp only [Lanes.byte, if_pos hj, Lanes.lane_setLane]
      by_cases hd : j / 8 = i / 8
      · rw [hd]
        simp only [and_self, if_true]
        rw [laneByte_setLaneByte _ _ _ _ (by omega) (by omega)]
        by_cases hji : j = i
        · subst hji
          simp [hi]
        · rw [if_neg (by omega), if_neg (by omega)]
      · rw [if_neg, if_neg (by omega)]
        rintro ⟨hc, hr⟩
        exact hd (laneCol_laneRow_inj (by omega) (by omega) hc hr)
    · rw [Lanes.byte_ge _ (by omega), Lanes.byte_ge _ (by omega), if_neg (by omega)]
  · rw [if_neg hi, if_neg (by omega)]

theorem Lanes.byte_xorByte (L : Lanes) (i j : Nat) (b : Byte) :
    (L.xorByte i b).byte j = if j = i ∧ i < 200 then L.byte i ^^^ b else L.byte j :=
  Lanes.byte_setByte L i j _

/-- Everything a block xor of S does. -/
theorem Lanes.byte_xorBytes (f : Nat → Byte) (n : Nat) (L : Lanes) (j : Nat) :
    (L.xorBytes f n).byte j = if j < n ∧ j < 200 then L.byte j ^^^ f j else L.byte j := by
  induction n with
  | zero => simp [Lanes.xorBytes]
  | succ n ih =>
    simp only [Lanes.xorBytes, Lanes.byte_xorByte]
    by_cases h : j = n
    · subst h
      simp [ih]
    · rw [if_neg (by omega), ih]
      by_cases h2 : j < n ∧ j < 200
      · rw [if_pos h2, if_pos (by omega)]
      · rw [if_neg h2, if_neg (by omega)]

/-- A block xor depends on the bytes below its length only. -/
theorem Lanes.xorBytes_congr {f g : Nat → Byte} {n : Nat} (L : Lanes)
    (h : ∀ i, i < n → f i = g i) : L.xorBytes f n = L.xorBytes g n := by
  induction n with
  | zero => rfl
  | succ n ih =>
    simp only [Lanes.xorBytes]
    rw [ih (fun i hi => h i (by omega)), h n (by omega)]

end Sys2Proof.Machine
end

