-- ==== Sys2Proof/Laws/Memory.lean ====
section
/-! SUPPORT. The laws of a buffer: read after write, other offsets untouched, the canonical form and the
bound on offsets kept by every write. -/

namespace Sys2Proof.Machine

theorem Memory.get?_set (m : Memory) (i j : Nat) (v : Byte) :
    (m.set i v).get? j = if j = i then some v else m.get? j := by
  induction m with
  | nil => simp [Memory.set, Memory.get?]
  | cons c m ih =>
    obtain ⟨a, b⟩ := c
    simp only [Memory.set]
    split
    · simp only [Memory.get?]
    · split
      · subst_vars
        simp only [Memory.get?]
        split <;> rfl
      · simp only [Memory.get?, ih]
        split <;> split <;> simp_all

theorem Memory.risesFrom_mono {m : Memory} {a b : Nat} (hab : a ≤ b)
    (h : m.risesFrom b = true) : m.risesFrom a = true := by
  cases m with
  | nil => rfl
  | cons c m =>
    simp only [Memory.risesFrom, Bool.and_eq_true, decide_eq_true_eq] at h ⊢
    exact ⟨by omega, h.2⟩

theorem Memory.risesFrom_set {m : Memory} {lo i : Nat} (v : Byte) (hi : lo ≤ i)
    (h : m.risesFrom lo = true) : (m.set i v).risesFrom lo = true := by
  induction m generalizing lo with
  | nil => simpa [Memory.set, Memory.risesFrom] using hi
  | cons c m ih =>
    obtain ⟨a, b⟩ := c
    simp only [Memory.risesFrom, Bool.and_eq_true, decide_eq_true_eq] at h
    simp only [Memory.set]
    split
    · simp only [Memory.risesFrom, Bool.and_eq_true, decide_eq_true_eq]
      exact ⟨hi, by omega, h.2⟩
    · split
      · subst_vars
        simp only [Memory.risesFrom, Bool.and_eq_true, decide_eq_true_eq]
        exact ⟨hi, h.2⟩
      · simp only [Memory.risesFrom, Bool.and_eq_true, decide_eq_true_eq]
        exact ⟨h.1, ih (by omega) h.2⟩

/-- Every write keeps the canonical form. -/
theorem Memory.wf_set {m : Memory} (i : Nat) (v : Byte) (h : m.wf = true) :
    (m.set i v).wf = true :=
  Memory.risesFrom_set v (Nat.zero_le i) h

theorem Memory.below_set {m : Memory} {size i : Nat} (v : Byte) (hi : i < size)
    (h : m.below size = true) : (m.set i v).below size = true := by
  induction m with
  | nil => simpa [Memory.set, Memory.below] using hi
  | cons c m ih =>
    obtain ⟨a, b⟩ := c
    simp only [Memory.below, List.all_cons, Bool.and_eq_true, decide_eq_true_eq] at h ih ⊢
    simp only [Memory.set]
    split
    · simp only [List.all_cons, Bool.and_eq_true, decide_eq_true_eq]
      exact ⟨hi, h⟩
    · split
      · simp only [List.all_cons, Bool.and_eq_true, decide_eq_true_eq]
        exact ⟨hi, h.2⟩
      · simp only [List.all_cons, Bool.and_eq_true, decide_eq_true_eq]
        exact ⟨h.1, ih h.2⟩

/-- Everything a block write does: the n bytes from start, and no other offset. -/
theorem Memory.get?_writeBytes (start : Nat) (f : Nat → Byte) (n : Nat) (m : Memory) (j : Nat) :
    (m.writeBytes start f n).get? j =
      if start ≤ j ∧ j < start + n then some (f (j - start)) else m.get? j := by
  induction n with
  | zero =>
    have : ¬(start ≤ j ∧ j < start + 0) := by omega
    simp only [Memory.writeBytes, if_neg this]
  | succ n ih =>
    simp only [Memory.writeBytes, Memory.get?_set, ih]
    by_cases h : j = start + n
    · subst h
      have : start ≤ start + n ∧ start + n < start + (n + 1) := by omega
      simp [this]
    · rw [if_neg h]
      by_cases h2 : start ≤ j ∧ j < start + n
      · rw [if_pos h2, if_pos (by omega)]
      · rw [if_neg h2, if_neg (by omega)]

theorem Memory.wf_writeBytes (start : Nat) (f : Nat → Byte) (n : Nat) {m : Memory}
    (h : m.wf = true) : (m.writeBytes start f n).wf = true := by
  induction n with
  | zero => exact h
  | succ n ih => exact Memory.wf_set _ _ ih

theorem Memory.below_writeBytes {size start : Nat} (f : Nat → Byte) (n : Nat) {m : Memory}
    (hn : start + n ≤ size) (h : m.below size = true) :
    (m.writeBytes start f n).below size = true := by
  induction n with
  | zero => exact h
  | succ n ih => exact Memory.below_set _ (by omega) (ih (by omega))

/-- Memory at reset has the canonical form. -/
theorem Memory.wf_reset (p : Config.Params) :
    (State.resetWith p).inBuf.wf = true ∧ (State.resetWith p).outBuf.wf = true := ⟨rfl, rfl⟩

end Sys2Proof.Machine
end

