-- ==== Sys2Proof/Laws/State.lean ====
section
/-! SUPPORT. One lemma for each field and each shared update of the state, so that no proof unfolds a
record update; one equation for each step of a round. -/

namespace Sys2Proof.Machine

/-! ## raiseErr -/

@[simp] theorem raiseErr_lanes (c : ErrCode) (s : State) : (raiseErr c s).lanes = s.lanes := rfl
@[simp] theorem raiseErr_r (c : ErrCode) (s : State) : (raiseErr c s).r = s.r := rfl
@[simp] theorem raiseErr_rnd (c : ErrCode) (s : State) : (raiseErr c s).rnd = s.rnd := rfl
@[simp] theorem raiseErr_rate (c : ErrCode) (s : State) : (raiseErr c s).rate = s.rate := rfl
@[simp] theorem raiseErr_cap (c : ErrCode) (s : State) : (raiseErr c s).cap = s.cap := rfl
@[simp] theorem raiseErr_sfx (c : ErrCode) (s : State) : (raiseErr c s).sfx = s.sfx := rfl
@[simp] theorem raiseErr_inlen (c : ErrCode) (s : State) : (raiseErr c s).inlen = s.inlen := rfl
@[simp] theorem raiseErr_outlen (c : ErrCode) (s : State) : (raiseErr c s).outlen = s.outlen := rfl
@[simp] theorem raiseErr_iptr (c : ErrCode) (s : State) : (raiseErr c s).iptr = s.iptr := rfl
@[simp] theorem raiseErr_optr (c : ErrCode) (s : State) : (raiseErr c s).optr = s.optr := rfl
@[simp] theorem raiseErr_blk (c : ErrCode) (s : State) : (raiseErr c s).blk = s.blk := rfl
@[simp] theorem raiseErr_inBuf (c : ErrCode) (s : State) : (raiseErr c s).inBuf = s.inBuf := rfl
@[simp] theorem raiseErr_outBuf (c : ErrCode) (s : State) : (raiseErr c s).outBuf = s.outBuf := rfl
@[simp] theorem raiseErr_phase (c : ErrCode) (s : State) : (raiseErr c s).phase = .error := rfl
@[simp] theorem raiseErr_errcode (c : ErrCode) (s : State) : (raiseErr c s).errcode = c := rfl
@[simp] theorem raiseErr_params (c : ErrCode) (s : State) : (raiseErr c s).params = s.params := rfl
@[simp] theorem raiseErr_epoch (c : ErrCode) (s : State) : (raiseErr c s).epoch = s.epoch := rfl
@[simp] theorem raiseErr_pending (c : ErrCode) (s : State) : (raiseErr c s).pending = s.pending := rfl
@[simp] theorem raiseErr_response (c : ErrCode) (s : State) : (raiseErr c s).response = s.response := rfl

/-! ## openInvocation -/

@[simp] theorem openInvocation_lanes (s : State) : (openInvocation s).lanes = Lanes.zero := rfl
@[simp] theorem openInvocation_r (s : State) : (openInvocation s).r = s.r := rfl
@[simp] theorem openInvocation_rnd (s : State) : (openInvocation s).rnd = s.rnd := rfl
@[simp] theorem openInvocation_rate (s : State) : (openInvocation s).rate = s.rate := rfl
@[simp] theorem openInvocation_cap (s : State) : (openInvocation s).cap = s.cap := rfl
@[simp] theorem openInvocation_sfx (s : State) : (openInvocation s).sfx = s.sfx := rfl
@[simp] theorem openInvocation_inlen (s : State) : (openInvocation s).inlen = s.inlen := rfl
@[simp] theorem openInvocation_outlen (s : State) : (openInvocation s).outlen = s.outlen := rfl
@[simp] theorem openInvocation_iptr (s : State) : (openInvocation s).iptr = 0 := rfl
@[simp] theorem openInvocation_optr (s : State) : (openInvocation s).optr = 0 := rfl
@[simp] theorem openInvocation_blk (s : State) : (openInvocation s).blk = 0 := rfl
@[simp] theorem openInvocation_inBuf (s : State) : (openInvocation s).inBuf = s.inBuf := rfl
@[simp] theorem openInvocation_outBuf (s : State) : (openInvocation s).outBuf = s.outBuf := rfl
@[simp] theorem openInvocation_phase (s : State) : (openInvocation s).phase = .absorb := rfl
@[simp] theorem openInvocation_errcode (s : State) : (openInvocation s).errcode = .none := rfl
@[simp] theorem openInvocation_params (s : State) : (openInvocation s).params = s.params := rfl
@[simp] theorem openInvocation_epoch (s : State) : (openInvocation s).epoch = s.epoch := rfl
@[simp] theorem openInvocation_pending (s : State) : (openInvocation s).pending = s.pending := rfl
@[simp] theorem openInvocation_response (s : State) : (openInvocation s).response = s.response := rfl

/-! ## loadParams -/

@[simp] theorem loadParams_lanes (a b : Word) (x : Byte) (s : State) : (loadParams a b x s).lanes = s.lanes := rfl
@[simp] theorem loadParams_r (a b : Word) (x : Byte) (s : State) : (loadParams a b x s).r = s.r := rfl
@[simp] theorem loadParams_rnd (a b : Word) (x : Byte) (s : State) : (loadParams a b x s).rnd = s.rnd := rfl
@[simp] theorem loadParams_rate (a b : Word) (x : Byte) (s : State) : (loadParams a b x s).rate = a := rfl
@[simp] theorem loadParams_cap (a b : Word) (x : Byte) (s : State) : (loadParams a b x s).cap = b := rfl
@[simp] theorem loadParams_sfx (a b : Word) (x : Byte) (s : State) : (loadParams a b x s).sfx = x := rfl
@[simp] theorem loadParams_inlen (a b : Word) (x : Byte) (s : State) : (loadParams a b x s).inlen = s.inlen := rfl
@[simp] theorem loadParams_outlen (a b : Word) (x : Byte) (s : State) : (loadParams a b x s).outlen = s.outlen := rfl
@[simp] theorem loadParams_iptr (a b : Word) (x : Byte) (s : State) : (loadParams a b x s).iptr = s.iptr := rfl
@[simp] theorem loadParams_optr (a b : Word) (x : Byte) (s : State) : (loadParams a b x s).optr = s.optr := rfl
@[simp] theorem loadParams_blk (a b : Word) (x : Byte) (s : State) : (loadParams a b x s).blk = s.blk := rfl
@[simp] theorem loadParams_inBuf (a b : Word) (x : Byte) (s : State) : (loadParams a b x s).inBuf = s.inBuf := rfl
@[simp] theorem loadParams_outBuf (a b : Word) (x : Byte) (s : State) : (loadParams a b x s).outBuf = s.outBuf := rfl
@[simp] theorem loadParams_phase (a b : Word) (x : Byte) (s : State) : (loadParams a b x s).phase = s.phase := rfl
@[simp] theorem loadParams_errcode (a b : Word) (x : Byte) (s : State) : (loadParams a b x s).errcode = s.errcode := rfl
@[simp] theorem loadParams_params (a b : Word) (x : Byte) (s : State) : (loadParams a b x s).params = s.params := rfl
@[simp] theorem loadParams_epoch (a b : Word) (x : Byte) (s : State) : (loadParams a b x s).epoch = s.epoch := rfl
@[simp] theorem loadParams_pending (a b : Word) (x : Byte) (s : State) : (loadParams a b x s).pending = s.pending := rfl
@[simp] theorem loadParams_response (a b : Word) (x : Byte) (s : State) : (loadParams a b x s).response = s.response := rfl

/-! ## respond -/

@[simp] theorem respond_lanes (p : Response) (s : State) : (respond p s).lanes = s.lanes := rfl
@[simp] theorem respond_r (p : Response) (s : State) : (respond p s).r = s.r := rfl
@[simp] theorem respond_rnd (p : Response) (s : State) : (respond p s).rnd = s.rnd := rfl
@[simp] theorem respond_rate (p : Response) (s : State) : (respond p s).rate = s.rate := rfl
@[simp] theorem respond_cap (p : Response) (s : State) : (respond p s).cap = s.cap := rfl
@[simp] theorem respond_sfx (p : Response) (s : State) : (respond p s).sfx = s.sfx := rfl
@[simp] theorem respond_inlen (p : Response) (s : State) : (respond p s).inlen = s.inlen := rfl
@[simp] theorem respond_outlen (p : Response) (s : State) : (respond p s).outlen = s.outlen := rfl
@[simp] theorem respond_iptr (p : Response) (s : State) : (respond p s).iptr = s.iptr := rfl
@[simp] theorem respond_optr (p : Response) (s : State) : (respond p s).optr = s.optr := rfl
@[simp] theorem respond_blk (p : Response) (s : State) : (respond p s).blk = s.blk := rfl
@[simp] theorem respond_inBuf (p : Response) (s : State) : (respond p s).inBuf = s.inBuf := rfl
@[simp] theorem respond_outBuf (p : Response) (s : State) : (respond p s).outBuf = s.outBuf := rfl
@[simp] theorem respond_phase (p : Response) (s : State) : (respond p s).phase = s.phase := rfl
@[simp] theorem respond_errcode (p : Response) (s : State) : (respond p s).errcode = s.errcode := rfl
@[simp] theorem respond_params (p : Response) (s : State) : (respond p s).params = s.params := rfl
@[simp] theorem respond_epoch (p : Response) (s : State) : (respond p s).epoch = s.epoch := rfl
@[simp] theorem respond_pending (p : Response) (s : State) : (respond p s).pending = s.pending := rfl
@[simp] theorem respond_response (p : Response) (s : State) : (respond p s).response = some p := rfl

/-! ## pinitStep -/

@[simp] theorem pinitStep_lanes (s : State) : (pinitStep s).lanes = s.lanes := rfl
@[simp] theorem pinitStep_r (s : State) : (pinitStep s).r = 0x01 := rfl
@[simp] theorem pinitStep_rnd (s : State) : (pinitStep s).rnd = 0 := rfl
@[simp] theorem pinitStep_rate (s : State) : (pinitStep s).rate = s.rate := rfl
@[simp] theorem pinitStep_cap (s : State) : (pinitStep s).cap = s.cap := rfl
@[simp] theorem pinitStep_sfx (s : State) : (pinitStep s).sfx = s.sfx := rfl
@[simp] theorem pinitStep_inlen (s : State) : (pinitStep s).inlen = s.inlen := rfl
@[simp] theorem pinitStep_outlen (s : State) : (pinitStep s).outlen = s.outlen := rfl
@[simp] theorem pinitStep_iptr (s : State) : (pinitStep s).iptr = s.iptr := rfl
@[simp] theorem pinitStep_optr (s : State) : (pinitStep s).optr = s.optr := rfl
@[simp] theorem pinitStep_blk (s : State) : (pinitStep s).blk = s.blk := rfl
@[simp] theorem pinitStep_inBuf (s : State) : (pinitStep s).inBuf = s.inBuf := rfl
@[simp] theorem pinitStep_outBuf (s : State) : (pinitStep s).outBuf = s.outBuf := rfl
@[simp] theorem pinitStep_phase (s : State) : (pinitStep s).phase = s.phase := rfl
@[simp] theorem pinitStep_errcode (s : State) : (pinitStep s).errcode = s.errcode := rfl
@[simp] theorem pinitStep_params (s : State) : (pinitStep s).params = s.params := rfl
@[simp] theorem pinitStep_epoch (s : State) : (pinitStep s).epoch = s.epoch := rfl
@[simp] theorem pinitStep_pending (s : State) : (pinitStep s).pending = s.pending := rfl
@[simp] theorem pinitStep_response (s : State) : (pinitStep s).response = s.response := rfl

/-! ## xorStateByte -/

@[simp] theorem xorStateByte_lanes (i : Nat) (b : Byte) (s : State) : (xorStateByte i b s).lanes = s.lanes.xorByte i b := rfl
@[simp] theorem xorStateByte_r (i : Nat) (b : Byte) (s : State) : (xorStateByte i b s).r = s.r := rfl
@[simp] theorem xorStateByte_rnd (i : Nat) (b : Byte) (s : State) : (xorStateByte i b s).rnd = s.rnd := rfl
@[simp] theorem xorStateByte_rate (i : Nat) (b : Byte) (s : State) : (xorStateByte i b s).rate = s.rate := rfl
@[simp] theorem xorStateByte_cap (i : Nat) (b : Byte) (s : State) : (xorStateByte i b s).cap = s.cap := rfl
@[simp] theorem xorStateByte_sfx (i : Nat) (b : Byte) (s : State) : (xorStateByte i b s).sfx = s.sfx := rfl
@[simp] theorem xorStateByte_inlen (i : Nat) (b : Byte) (s : State) : (xorStateByte i b s).inlen = s.inlen := rfl
@[simp] theorem xorStateByte_outlen (i : Nat) (b : Byte) (s : State) : (xorStateByte i b s).outlen = s.outlen := rfl
@[simp] theorem xorStateByte_iptr (i : Nat) (b : Byte) (s : State) : (xorStateByte i b s).iptr = s.iptr := rfl
@[simp] theorem xorStateByte_optr (i : Nat) (b : Byte) (s : State) : (xorStateByte i b s).optr = s.optr := rfl
@[simp] theorem xorStateByte_blk (i : Nat) (b : Byte) (s : State) : (xorStateByte i b s).blk = s.blk := rfl
@[simp] theorem xorStateByte_inBuf (i : Nat) (b : Byte) (s : State) : (xorStateByte i b s).inBuf = s.inBuf := rfl
@[simp] theorem xorStateByte_outBuf (i : Nat) (b : Byte) (s : State) : (xorStateByte i b s).outBuf = s.outBuf := rfl
@[simp] theorem xorStateByte_phase (i : Nat) (b : Byte) (s : State) : (xorStateByte i b s).phase = s.phase := rfl
@[simp] theorem xorStateByte_errcode (i : Nat) (b : Byte) (s : State) : (xorStateByte i b s).errcode = s.errcode := rfl
@[simp] theorem xorStateByte_params (i : Nat) (b : Byte) (s : State) : (xorStateByte i b s).params = s.params := rfl
@[simp] theorem xorStateByte_epoch (i : Nat) (b : Byte) (s : State) : (xorStateByte i b s).epoch = s.epoch := rfl
@[simp] theorem xorStateByte_pending (i : Nat) (b : Byte) (s : State) : (xorStateByte i b s).pending = s.pending := rfl
@[simp] theorem xorStateByte_response (i : Nat) (b : Byte) (s : State) : (xorStateByte i b s).response = s.response := rfl

/-! ## The steps of a round -/

@[simp] theorem thetaStep_eq (s : State) : thetaStep s = { s with lanes := theta s.lanes } := rfl

@[simp] theorem rhoPiStep_eq (s : State) : rhoPiStep s = { s with lanes := rhoPi s.lanes } := rfl

@[simp] theorem chiStep_eq (s : State) : chiStep s = { s with lanes := chi s.lanes } := rfl

@[simp] theorem iotaStep_eq (s : State) :
    iotaStep s = { s with lanes := (iota s.lanes s.r).1, r := (iota s.lanes s.r).2 } := rfl

/-! ## Open invocations and errors -/

theorem isOpen_iff (s : State) : s.isOpen = true ↔ s.phase = .absorb ∨ s.phase = .squeeze := by
  cases h : s.phase <;> simp [State.isOpen, h]

theorem isOpen_congr {s t : State} (h : s.phase = t.phase) : s.isOpen = t.isOpen := by
  simp [State.isOpen, h]

theorem whenClosed_open (f : State → State) {s : State} (h : s.isOpen = true) :
    whenClosed f s = raiseErr .seq s := by
  simp [whenClosed, h]

theorem whenClosed_closed (f : State → State) {s : State} (h : s.isOpen = false) :
    whenClosed f s = f s := by
  simp [whenClosed, h]

@[simp] theorem raiseErr_isOpen (c : ErrCode) (s : State) : (raiseErr c s).isOpen = false := rfl

@[simp] theorem openInvocation_isOpen (s : State) : (openInvocation s).isOpen = true := rfl

/-- The parameter check reads RATE, CAP, INLEN, OUTLEN and the buffer sizes only. -/
theorem checkParams_congr {s t : State} (hr : s.rate = t.rate) (hc : s.cap = t.cap)
    (hi : s.inlen = t.inlen) (ho : s.outlen = t.outlen) (hp : s.params = t.params) :
    checkParams s = checkParams t := by
  simp [checkParams, hr, hc, hi, ho, hp]

/-- What a passed parameter check says (41_sponge.md R131). -/
theorem checkParams_none {s : State} : checkParams s = none ↔
    s.outlen.toNat ≤ s.params.outBytes ∧ s.rate.toNat + s.cap.toNat = 1600 ∧
    s.rate.toNat % 8 = 0 ∧ s.rate.toNat ≠ 0 ∧ s.inlen.toNat ≤ s.params.inBytes := by
  unfold checkParams
  repeat' split
  all_goals simp only [reduceCtorEq, false_iff, true_iff]; omega

/-- Legal parameters give a block size of 1 to 200 bytes. -/
theorem rB_of_checkParams {s : State} (h : checkParams s = none) : 1 ≤ s.rB ∧ s.rB ≤ 200 := by
  have := checkParams_none.1 h
  unfold State.rB
  omega

end Sys2Proof.Machine
end

