-- ==== Sys2Proof/Laws/Permutation.lean ====
section
/-! SUPPORT. What the rounds and PERMUTE do, said once: PERMUTE writes the lanes, R and RND only, and
leaves R = 0x8E and RND = 24 whatever the state was (40_permutation.md R114). -/

namespace Sys2Proof.Machine

/-- n updates of the LFSR register. -/
def lfsrIter : Nat → Byte → Byte
  | 0, r => r
  | n + 1, r => lfsrIter n (lfsr r)

theorem iotaLoop_fst (n j : Nat) (r : Byte) (v : Lane) : (iotaLoop n j r v).1 = lfsrIter n r := by
  induction n generalizing j r v with
  | zero => rfl
  | succ n ih => simp only [iotaLoop, lfsrIter, ih]

/-- R after IOTA: seven updates, whatever the lanes (40_permutation.md R105). -/
theorem iota_snd (L : Lanes) (r : Byte) : (iota L r).2 = lfsrIter 7 r := by
  simp only [iota, iotaLoop_fst]

/-- An LFSR update never makes R zero (40_permutation.md R106). -/
theorem lfsr_ne_zero {r : Byte} (h : r ≠ 0) : lfsr r ≠ 0 := by
  revert r
  decide

theorem lfsrIter_ne_zero {r : Byte} (n : Nat) (h : r ≠ 0) : lfsrIter n r ≠ 0 := by
  induction n generalizing r with
  | zero => exact h
  | succ n ih => exact ih (lfsr_ne_zero h)

theorem keccakRound_snd (L : Lanes) (r : Byte) : (keccakRound (L, r)).2 = lfsrIter 7 r :=
  iota_snd _ _

/-- One round on the state, said of the lanes, R and RND. -/
theorem roundStep_eq (s : State) : roundStep s =
    { s with
      lanes := (keccakRound (s.lanes, s.r)).1
      r := (keccakRound (s.lanes, s.r)).2
      rnd := s.rnd + 1 } := rfl

/-- n rounds on the state, said of the lanes, R and RND. -/
theorem roundSteps_eq (n : Nat) (s : State) : roundSteps n s =
    { s with
      lanes := (keccakRounds n (s.lanes, s.r)).1
      r := (keccakRounds n (s.lanes, s.r)).2
      rnd := s.rnd + BitVec.ofNat 5 n } := by
  induction n generalizing s with
  | zero => simp [roundSteps, keccakRounds]
  | succ n ih =>
    rw [roundSteps, ih, roundStep_eq]
    simp only [keccakRounds, Prod.mk.eta, State.mk.injEq, true_and, and_true]
    rw [Nat.add_comm n 1, BitVec.ofNat_add, BitVec.add_assoc]
    rfl

/-- R after n rounds does not depend on the lanes. -/
theorem keccakRounds_snd (n : Nat) (L M : Lanes) (r : Byte) :
    (keccakRounds n (L, r)).2 = (keccakRounds n (M, r)).2 := by
  induction n generalizing L M r with
  | zero => rfl
  | succ n ih =>
    rw [keccakRounds, keccakRounds]
    have h : keccakRound (L, r) = ((keccakRound (L, r)).1, lfsrIter 7 r) :=
      Prod.ext rfl (keccakRound_snd L r)
    have h' : keccakRound (M, r) = ((keccakRound (M, r)).1, lfsrIter 7 r) :=
      Prod.ext rfl (keccakRound_snd M r)
    rw [h, h']
    exact ih _ _ _

/-- After 24 rounds from R = 0x01, R = 0x8E (40_permutation.md R107). -/
theorem keccakRounds_24_snd (L : Lanes) : (keccakRounds 24 (L, 0x01)).2 = 0x8E := by
  rw [keccakRounds_snd 24 L Lanes.zero]
  decide +kernel

/-- PERMUTE, said once (40_permutation.md R114). -/
theorem permute_eq (s : State) :
    permute s = { s with lanes := keccakF s.lanes, r := 0x8E, rnd := 24 } := by
  rw [permute, roundSteps_eq]
  simp only [pinitStep_lanes, pinitStep_r, keccakRounds_24_snd, pinitStep_rnd]
  rfl

/-! ## PERMUTE, field by field -/

@[simp] theorem permute_lanes (s : State) : (permute s).lanes = keccakF s.lanes := by rw [permute_eq]
@[simp] theorem permute_r (s : State) : (permute s).r = 0x8E := by rw [permute_eq]
@[simp] theorem permute_rnd (s : State) : (permute s).rnd = 24 := by rw [permute_eq]
@[simp] theorem permute_rate (s : State) : (permute s).rate = s.rate := by rw [permute_eq]
@[simp] theorem permute_cap (s : State) : (permute s).cap = s.cap := by rw [permute_eq]
@[simp] theorem permute_sfx (s : State) : (permute s).sfx = s.sfx := by rw [permute_eq]
@[simp] theorem permute_inlen (s : State) : (permute s).inlen = s.inlen := by rw [permute_eq]
@[simp] theorem permute_outlen (s : State) : (permute s).outlen = s.outlen := by rw [permute_eq]
@[simp] theorem permute_iptr (s : State) : (permute s).iptr = s.iptr := by rw [permute_eq]
@[simp] theorem permute_optr (s : State) : (permute s).optr = s.optr := by rw [permute_eq]
@[simp] theorem permute_blk (s : State) : (permute s).blk = s.blk := by rw [permute_eq]
@[simp] theorem permute_inBuf (s : State) : (permute s).inBuf = s.inBuf := by rw [permute_eq]
@[simp] theorem permute_outBuf (s : State) : (permute s).outBuf = s.outBuf := by rw [permute_eq]
@[simp] theorem permute_phase (s : State) : (permute s).phase = s.phase := by rw [permute_eq]
@[simp] theorem permute_errcode (s : State) : (permute s).errcode = s.errcode := by rw [permute_eq]
@[simp] theorem permute_params (s : State) : (permute s).params = s.params := by rw [permute_eq]
@[simp] theorem permute_epoch (s : State) : (permute s).epoch = s.epoch := by rw [permute_eq]
@[simp] theorem permute_pending (s : State) : (permute s).pending = s.pending := by rw [permute_eq]
@[simp] theorem permute_response (s : State) : (permute s).response = s.response := by rw [permute_eq]

end Sys2Proof.Machine
end

