-- ==== Sys2Proof/Laws/Sponge.lean ====
section
/-! SUPPORT. What each sponge step does, said once, and that KECCAK's loops end by their own conditions
(41_sponge.md R133 to R136). -/

namespace Sys2Proof.Machine

/-! ## ABSORB -/

theorem chunkLen_le (s : State) : s.iptr.toNat + s.chunkLen ≤ max s.inlen.toNat s.iptr.toNat := by
  simp only [State.chunkLen]
  omega

/-- IPTR after one chunk, as a number: it never wraps. -/
theorem xorChunk_iptr (s : State) : (xorChunk s).iptr.toNat = s.iptr.toNat + s.chunkLen := by
  have h := chunkLen_le s
  have h1 := s.inlen.isLt
  have h2 := s.iptr.isLt
  simp only [xorChunk, BitVec.toNat_add, BitVec.toNat_ofNat]
  omega

/-- Everything an enabled ABSORB does (41_sponge.md R133). -/
theorem absorbStep_eq (s : State) : absorbStep s =
    { s with
      lanes :=
        if s.chunkLen = s.rB then keccakF (s.lanes.xorBytes s.chunkByte s.chunkLen)
        else s.lanes.xorBytes s.chunkByte s.chunkLen
      r := if s.chunkLen = s.rB then 0x8E else s.r
      rnd := if s.chunkLen = s.rB then 24 else s.rnd
      iptr := s.iptr + BitVec.ofNat 32 s.chunkLen
      blk := if s.chunkLen = s.rB then 0 else BitVec.ofNat 8 s.chunkLen } := by
  unfold absorbStep
  split
  · simp only [permute_eq, xorChunk]
  · simp only [xorChunk]

theorem absorbStep_iptr (s : State) : (absorbStep s).iptr.toNat = s.iptr.toNat + s.chunkLen := by
  rw [← xorChunk_iptr, absorbStep_eq]
  rfl

/-- ABSORB writes S, R, RND, IPTR and BLK only. -/
theorem absorbStep_frame (s : State) : absorbStep s =
    { s with
      lanes := (absorbStep s).lanes
      r := (absorbStep s).r
      rnd := (absorbStep s).rnd
      iptr := (absorbStep s).iptr
      blk := (absorbStep s).blk } := by
  rw [absorbStep_eq]

/-- The absorb loop writes S, R, RND, IPTR and BLK only. -/
theorem absorbLoop_frame (n : Nat) (s : State) : absorbLoop n s =
    { s with
      lanes := (absorbLoop n s).lanes
      r := (absorbLoop n s).r
      rnd := (absorbLoop n s).rnd
      iptr := (absorbLoop n s).iptr
      blk := (absorbLoop n s).blk } := by
  induction n generalizing s with
  | zero => rfl
  | succ n ih =>
    rw [absorbLoop]
    split
    · rw [ih, absorbStep_frame s]
    · rfl

/-- The absorb loop ends with IPTR = INLEN: each pass takes at least one byte (41_sponge.md R136). -/
theorem absorbLoop_iptr (n : Nat) (s : State) (hB : 1 ≤ s.rB) (hle : s.iptr.toNat ≤ s.inlen.toNat)
    (hn : s.inlen.toNat - s.iptr.toNat ≤ n) : (absorbLoop n s).iptr = s.inlen := by
  induction n generalizing s with
  | zero =>
    apply BitVec.eq_of_toNat_eq
    simp only [absorbLoop]
    omega
  | succ n ih =>
    rw [absorbLoop]
    split
    · have hi := absorbStep_iptr s
      have hc : s.chunkLen = min (s.inlen.toNat - s.iptr.toNat) s.rB := rfl
      have hr : (absorbStep s).rB = s.rB := by rw [absorbStep_frame s]; rfl
      have hl : (absorbStep s).inlen = s.inlen := by rw [absorbStep_frame s]
      rw [ih (absorbStep s) (by omega) (by rw [hl]; omega) (by rw [hl]; omega), hl]
    · apply BitVec.eq_of_toNat_eq
      omega

/-! ## PAD -/

/-- Everything an enabled PAD does (41_sponge.md R134). -/
theorem padStep_eq (s : State) : padStep s =
    { s with
      lanes := padState s.rB s.blk.toNat s.sfx s.lanes
      r := 0x8E
      rnd := 24
      phase := if s.outlen.toNat > 0 then .squeeze else .done } := by
  unfold padStep padSuffix padState
  by_cases h : s.sfx.getLsbD 7 = true ∧ s.blk.toNat = s.rB - 1
  · simp only [if_pos h, permute_eq, xorStateByte]
  · simp only [if_neg h, permute_eq, xorStateByte]

/-! ## SQUEEZE -/

theorem copyBlock_optr (s : State) : (copyBlock s).optr.toNat = s.optr.toNat + s.blockLen := by
  have h1 := s.outlen.isLt
  have h2 := s.optr.isLt
  have h3 : s.blockLen = min (s.outlen.toNat - s.optr.toNat) s.rB := rfl
  simp only [copyBlock, BitVec.toNat_add, BitVec.toNat_ofNat]
  omega

/-- OUT after one block: the n bytes of S from OPTR, and no other byte (41_sponge.md R135). -/
theorem copyBlock_outByte (s : State) (a : Nat) : (copyBlock s).outByte a =
    if s.optr.toNat ≤ a ∧ a < s.optr.toNat + s.blockLen then s.lanes.byte (a - s.optr.toNat)
    else s.outByte a := by
  simp only [State.outByte, copyBlock, Memory.get?_writeBytes]
  split <;> rfl

/-- Everything an enabled SQUEEZE does (41_sponge.md R135). -/
theorem squeezeStep_eq (s : State) : squeezeStep s =
    if s.optr.toNat + s.blockLen < s.outlen.toNat then
      { copyBlock s with lanes := keccakF s.lanes, r := 0x8E, rnd := 24 }
    else { copyBlock s with phase := .done } := by
  rw [squeezeStep, copyBlock_optr]
  split
  · rw [permute_eq]
    rfl
  · rfl

/-- SQUEEZE writes S, R, RND, OPTR, OUT and PHASE only. -/
theorem squeezeStep_frame (s : State) : squeezeStep s =
    { s with
      lanes := (squeezeStep s).lanes
      r := (squeezeStep s).r
      rnd := (squeezeStep s).rnd
      optr := (squeezeStep s).optr
      outBuf := (squeezeStep s).outBuf
      phase := (squeezeStep s).phase } := by
  rw [squeezeStep_eq]
  split <;> rfl

theorem squeezeStep_optr (s : State) : (squeezeStep s).optr.toNat = s.optr.toNat + s.blockLen := by
  rw [← copyBlock_optr, squeezeStep_eq]
  split <;> rfl

theorem squeezeStep_outByte (s : State) (a : Nat) :
    (squeezeStep s).outByte a = (copyBlock s).outByte a := by
  rw [squeezeStep_eq]
  split <;> rfl

theorem squeezeStep_phase (s : State) : (squeezeStep s).phase =
    if s.optr.toNat + s.blockLen < s.outlen.toNat then s.phase else .done := by
  rw [squeezeStep_eq]
  split <;> rfl

/-- The squeeze loop writes S, R, RND, OPTR, OUT and PHASE only. -/
theorem squeezeLoop_frame (n : Nat) (s : State) : squeezeLoop n s =
    { s with
      lanes := (squeezeLoop n s).lanes
      r := (squeezeLoop n s).r
      rnd := (squeezeLoop n s).rnd
      optr := (squeezeLoop n s).optr
      outBuf := (squeezeLoop n s).outBuf
      phase := (squeezeLoop n s).phase } := by
  induction n generalizing s with
  | zero => rfl
  | succ n ih =>
    rw [squeezeLoop]
    split
    · rw [ih, squeezeStep_frame s]
    · rfl

/-- The squeeze loop ends in DONE with OPTR = OUTLEN: each pass gives at least one byte
(41_sponge.md R136). -/
theorem squeezeLoop_done (n : Nat) (s : State) (hB : 1 ≤ s.rB) (hp : s.phase = .squeeze)
    (hlt : s.optr.toNat < s.outlen.toNat) (hn : s.outlen.toNat - s.optr.toNat ≤ n) :
    (squeezeLoop n s).phase = .done ∧ (squeezeLoop n s).optr = s.outlen := by
  induction n generalizing s with
  | zero => omega
  | succ n ih =>
    have hc : s.blockLen = min (s.outlen.toNat - s.optr.toNat) s.rB := rfl
    have ho := squeezeStep_optr s
    have hph := squeezeStep_phase s
    have hr : (squeezeStep s).rB = s.rB := by rw [squeezeStep_frame s]; rfl
    have hl : (squeezeStep s).outlen = s.outlen := by rw [squeezeStep_frame s]
    rw [squeezeLoop, if_pos hp]
    by_cases h : s.optr.toNat + s.blockLen < s.outlen.toNat
    · rw [if_pos h, hp] at hph
      rw [← hl]
      exact ih (squeezeStep s) (by omega) hph (by rw [hl]; omega) (by rw [hl]; omega)
    · rw [if_neg h] at hph
      have stop : squeezeLoop n (squeezeStep s) = squeezeStep s := by
        cases n <;> simp [squeezeLoop, hph]
      rw [stop]
      exact ⟨hph, BitVec.eq_of_toNat_eq (by omega)⟩

/-- R and RND after an absorb loop, a pad and a squeeze loop are what PERMUTE leaves. -/
theorem squeezeLoop_r_rnd (n : Nat) (s : State) (hr : s.r = 0x8E) (hd : s.rnd = 24) :
    (squeezeLoop n s).r = 0x8E ∧ (squeezeLoop n s).rnd = 24 := by
  induction n generalizing s with
  | zero => exact ⟨hr, hd⟩
  | succ n ih =>
    rw [squeezeLoop]
    split
    · apply ih
      · rw [squeezeStep_eq]
        split
        · rfl
        · exact hr
      · rw [squeezeStep_eq]
        split
        · rfl
        · exact hd
    · exact ⟨hr, hd⟩

end Sys2Proof.Machine
end

