-- ==== Sys2Proof/Laws/SpongeFunction.lean ====
section
/-! SUPPORT. The loops of KECCAK against the sponge function of 41_sponge.md R130: the absorb loop
leaves the absorbed state and the last chunk's length, the squeeze loop writes the output bytes. -/

namespace Sys2Proof.Machine

@[simp] theorem inputBytes_length (s : State) : s.inputBytes.length = s.inlen.toNat := by
  simp [State.inputBytes]

theorem inputBytes_getD (s : State) {i : Nat} (h : i < s.inlen.toNat) :
    s.inputBytes.getD i 0 = s.inByte i := by
  simp [State.inputBytes, List.getD_eq_getElem?_getD, h]

/-- The input of an invocation is read from INLEN, IN and nothing else. -/
theorem inputBytes_congr {s t : State} (hl : s.inlen = t.inlen) (hb : s.inBuf = t.inBuf)
    (he : s.epoch = t.epoch) : s.inputBytes = t.inputBytes := by
  have : s.inByte = t.inByte := by
    funext i
    simp [State.inByte, hb, he]
  simp [State.inputBytes, hl, this]

/-- The xor of the next chunk, in terms of the input as a byte sequence. -/
theorem xorBytes_chunk (s : State) (L : Lanes) :
    L.xorBytes s.chunkByte s.chunkLen =
      L.xorBytes (fun i => s.inputBytes.getD (s.iptr.toNat + i) 0) s.chunkLen := by
  apply Lanes.xorBytes_congr
  intro i hi
  have hc : s.chunkLen = min (s.inlen.toNat - s.iptr.toNat) s.rB := rfl
  rw [inputBytes_getD _ (by omega)]
  rfl

/-- The absorb loop from c full chunks on: S is the absorbed state and BLK the length of the last chunk
(41_sponge.md R130, R133). -/
theorem absorbLoop_spec (n c : Nat) (s : State) (hB : 1 ≤ s.rB) (hB2 : s.rB ≤ 200)
    (hle : s.iptr.toNat ≤ s.inlen.toNat) (hn : s.inlen.toNat - s.iptr.toNat ≤ n)
    (hi : s.iptr.toNat = c * s.rB) (hb : s.blk = 0)
    (hL : s.lanes = absorbFull s.rB s.inputBytes c) :
    (absorbLoop n s).lanes = absorbAll s.rB s.inputBytes ∧
    (absorbLoop n s).blk.toNat = s.inlen.toNat % s.rB := by
  induction n generalizing s c with
  | zero =>
    have hq : s.inlen.toNat = c * s.rB := by omega
    have h1 : s.inlen.toNat / s.rB = c := by rw [hq, Nat.mul_div_cancel _ (by omega)]
    have h2 : s.inlen.toNat % s.rB = 0 := by rw [hq, Nat.mul_mod_left]
    simp [absorbLoop, absorbAll, h1, h2, hb, hL, Lanes.xorBytes]
  | succ n ih =>
    have hc : s.chunkLen = min (s.inlen.toNat - s.iptr.toNat) s.rB := rfl
    rw [absorbLoop]
    by_cases hlt : s.iptr.toNat < s.inlen.toNat
    · rw [if_pos hlt]
      have hr : (absorbStep s).rB = s.rB := by rw [absorbStep_frame s]; rfl
      have hl : (absorbStep s).inlen = s.inlen := by rw [absorbStep_frame s]
      have hM : (absorbStep s).inputBytes = s.inputBytes := by
        apply inputBytes_congr <;> rw [absorbStep_frame s]
      have hip := absorbStep_iptr s
      by_cases hf : s.chunkLen = s.rB
      · rw [← hr, ← hM, ← hl]
        apply ih (c + 1)
        · omega
        · omega
        · rw [hl]; omega
        · rw [hl]; omega
        · rw [hr, hip, hf, hi]; ring
        · rw [absorbStep_eq]; simp [hf]
        · rw [hr, hM, absorbFull, ← hL, absorbStep_eq]
          simp only [if_pos hf]
          rw [xorBytes_chunk, hf, hi]
      · have hiz : s.inlen.toNat = c * s.rB + s.chunkLen := by omega
        have h1 : s.inlen.toNat / s.rB = c := by
          rw [hiz, Nat.add_comm, Nat.add_mul_div_right _ _ (by omega), Nat.div_eq_of_lt (by omega)]
          omega
        have h2 : s.inlen.toNat % s.rB = s.chunkLen := by
          rw [hiz, Nat.add_comm, Nat.add_mul_mod_self_right, Nat.mod_eq_of_lt (by omega)]
        have stop : absorbLoop n (absorbStep s) = absorbStep s := by
          cases n with
          | zero => rfl
          | succ n => rw [absorbLoop, if_neg (by rw [hl]; omega)]
        rw [stop, absorbStep_eq]
        simp only [if_neg hf]
        constructor
        · rw [xorBytes_chunk, absorbAll, inputBytes_length, h1, h2, hL, hi]
        · rw [h2, BitVec.toNat_ofNat]
          omega
    · rw [if_neg hlt]
      have hq : s.inlen.toNat = c * s.rB := by omega
      have h1 : s.inlen.toNat / s.rB = c := by rw [hq, Nat.mul_div_cancel _ (by omega)]
      have h2 : s.inlen.toNat % s.rB = 0 := by rw [hq, Nat.mul_mod_left]
      simp [absorbAll, h1, h2, hb, hL, Lanes.xorBytes]

/-- The output loop gives exactly the bytes asked for. -/
theorem squeezeBytes_length (rB fuel n : Nat) (L : Lanes) (hB : 1 ≤ rB) (hn : n ≤ fuel) :
    (squeezeBytes rB fuel n L).length = n := by
  induction fuel generalizing n L with
  | zero =>
    simp only [squeezeBytes, List.length_nil]
    omega
  | succ f ih =>
    rw [squeezeBytes]
    split
    · simp only [List.length_nil]
      omega
    · rw [List.length_append, List.length_map, List.length_range, ih _ _ (by omega)]
      omega

theorem sponge_length (rate cap : Nat) (M : List Byte) (sfx : Byte) (n : Nat) (h : 8 ≤ rate) :
    (sponge rate cap M sfx n).length = n :=
  squeezeBytes_length _ _ _ _ (by omega) (Nat.le_refl n)

/-- The squeeze loop writes to OUT[OPTR..OUTLEN-1] the bytes of the output loop of R130, and no other
byte of OUT. -/
theorem squeezeLoop_outByte (n : Nat) (s : State) (hB : 1 ≤ s.rB) (hp : s.phase = .squeeze)
    (hlt : s.optr.toNat < s.outlen.toNat) (hn : s.outlen.toNat - s.optr.toNat ≤ n) (a : Nat) :
    (squeezeLoop n s).outByte a =
      if s.optr.toNat ≤ a ∧ a < s.outlen.toNat then
        (squeezeBytes s.rB n (s.outlen.toNat - s.optr.toNat) s.lanes).getD (a - s.optr.toNat) 0
      else s.outByte a := by
  induction n generalizing s with
  | zero => omega
  | succ n ih =>
    have hc : s.blockLen = min (s.outlen.toNat - s.optr.toNat) s.rB := rfl
    have ho := squeezeStep_optr s
    have hph := squeezeStep_phase s
    have hr : (squeezeStep s).rB = s.rB := by rw [squeezeStep_frame s]; rfl
    have hl : (squeezeStep s).outlen = s.outlen := by rw [squeezeStep_frame s]
    have hbytes := squeezeStep_outByte s a
    rw [copyBlock_outByte] at hbytes
    rw [squeezeLoop, if_pos hp, squeezeBytes,
      if_neg (show ¬ s.outlen.toNat - s.optr.toNat = 0 by omega), ← hc]
    by_cases h : s.optr.toNat + s.blockLen < s.outlen.toNat
    · rw [if_pos h, hp] at hph
      have hlanes : (squeezeStep s).lanes = keccakF s.lanes := by
        rw [squeezeStep_eq, if_pos h]
      rw [ih (squeezeStep s) (by omega) hph (by rw [hl]; omega) (by rw [hl]; omega), hr, hl, ho,
        hlanes, hbytes]
      by_cases h1 : s.optr.toNat + s.blockLen ≤ a ∧ a < s.outlen.toNat
      · rw [if_pos h1, if_pos (by omega), List.getD_append_right _ _ _ _ (by simp; omega)]
        congr 1
        · congr 1
          omega
        · simp
          omega
      · rw [if_neg h1]
        by_cases h2 : s.optr.toNat ≤ a ∧ a < s.optr.toNat + s.blockLen
        · rw [if_pos h2, if_pos (by omega), List.getD_append _ _ _ _ (by simp; omega)]
          simp [List.getD_eq_getElem?_getD, show a - s.optr.toNat < s.blockLen by omega]
        · rw [if_neg h2, if_neg (by omega)]
    · rw [if_neg h] at hph
      have stop : squeezeLoop n (squeezeStep s) = squeezeStep s := by
        cases n <;> simp [squeezeLoop, hph]
      rw [stop, hbytes]
      by_cases h2 : s.optr.toNat ≤ a ∧ a < s.optr.toNat + s.blockLen
      · rw [if_pos h2, if_pos (by omega), List.getD_append _ _ _ _ (by simp; omega)]
        simp [List.getD_eq_getElem?_getD, show a - s.optr.toNat < s.blockLen by omega]
      · rw [if_neg h2, if_neg (by omega)]

end Sys2Proof.Machine
end

