-- ==== Sys2Proof/Laws/Host.lean ====
section
/-! SUPPORT. What a command, a transaction and a step can do, each said once: every later proof about
step goes through these and unfolds none of the three. -/

namespace Sys2Proof.Machine

/-! ## Commands -/

/-- What the KECCAK steps write: a failed check raises its error; else everything below is written and
nothing else (41_sponge.md R136). -/
theorem keccakSteps_frame (s : State) :
    (∃ c, checkParams s = some c ∧ keccakSteps s = raiseErr c s) ∨
    (checkParams s = none ∧ keccakSteps s =
      { s with
        lanes := (keccakSteps s).lanes
        r := 0x8E
        rnd := 24
        blk := (keccakSteps s).blk
        iptr := s.inlen
        optr := s.outlen
        phase := .done
        errcode := .none
        outBuf := (keccakSteps s).outBuf }) := by
  cases hc : checkParams s with
  | some c => exact .inl ⟨c, rfl, by simp only [keccakSteps, hc]⟩
  | none =>
    right
    refine ⟨rfl, ?_⟩
    have hB := rB_of_checkParams hc
    simp only [keccakSteps, hc]
    have hi : (absorbLoop s.inlen.toNat (openInvocation s)).iptr = s.inlen :=
      absorbLoop_iptr _ (openInvocation s) hB.1 (by simp) (by simp)
    have hp := absorbLoop_frame s.inlen.toNat (openInvocation s)
    generalize absorbLoop s.inlen.toNat (openInvocation s) = a at hi hp ⊢
    have hq := padStep_eq a
    generalize padStep a = p at hq ⊢
    have hr := squeezeLoop_r_rnd s.outlen.toNat p (by rw [hq]) (by rw [hq])
    have hout : p.outlen = s.outlen := by rw [hq, hp]; rfl
    have hopt : p.optr = 0 := by rw [hq, hp]; rfl
    have hrB : p.rB = s.rB := by rw [hq, hp]; rfl
    have hdone : (squeezeLoop s.outlen.toNat p).phase = .done ∧
        (squeezeLoop s.outlen.toNat p).optr = s.outlen := by
      by_cases h0 : 0 < s.outlen.toNat
      · rw [← hout] at h0 ⊢
        apply squeezeLoop_done
        · rw [hrB]; exact hB.1
        · rw [hq] at h0 ⊢
          simp only at h0 ⊢
          exact if_pos h0
        · rw [hopt]; exact h0
        · omega
      · have h1 : s.outlen.toNat = 0 := by omega
        have h2 : p.phase = .done := by
          rw [← hout] at h0
          rw [hq] at h0 ⊢
          simp only at h0 ⊢
          exact if_neg h0
        rw [h1, squeezeLoop]
        refine ⟨h2, ?_⟩
        rw [hopt]
        exact (BitVec.eq_of_toNat_eq (by simpa using h1)).symm
    have hf := squeezeLoop_frame s.outlen.toNat p
    have h1 := hr.1
    have h2 := hr.2
    have h3 := hdone.1
    have h4 := hdone.2
    generalize squeezeLoop s.outlen.toNat p = q at hf h1 h2 h3 h4 ⊢
    rw [h1, h2, h3, h4, hq, hp] at hf
    simp only [hi, openInvocation] at hf
    rw [hf]

/-- What the KECCAK steps compute: BLK is the length of the last chunk, and OUT[0..OUTLEN-1] is the
sponge function of the input (41_sponge.md R130, R140). -/
theorem keccakSteps_spec {s : State} (hc : checkParams s = none) :
    (keccakSteps s).blk.toNat = s.inlen.toNat % s.rB ∧
    ∀ a, (keccakSteps s).outByte a =
      if a < s.outlen.toNat then
        (sponge s.rate.toNat s.cap.toNat s.inputBytes s.sfx s.outlen.toNat).getD a 0
      else s.outByte a := by
  have hB := rB_of_checkParams hc
  simp only [keccakSteps, hc]
  have hs := absorbLoop_spec s.inlen.toNat 0 (openInvocation s) hB.1 hB.2 (by simp) (by simp)
    (by simp) rfl rfl
  have hp := absorbLoop_frame s.inlen.toNat (openInvocation s)
  have hM : (openInvocation s).inputBytes = s.inputBytes := inputBytes_congr rfl rfl rfl
  have hR : (openInvocation s).rB = s.rB := rfl
  rw [hM, hR] at hs
  simp only [openInvocation_inlen] at hs
  generalize absorbLoop s.inlen.toNat (openInvocation s) = a at *
  have hq := padStep_eq a
  have hr : a.rB = s.rB := by rw [hp]; rfl
  have hsf : a.sfx = s.sfx := by rw [hp]; rfl
  have hol : a.outlen = s.outlen := by rw [hp]; rfl
  have hop : a.optr = 0 := by rw [hp]; rfl
  have hob : ∀ x, a.outByte x = s.outByte x := by intro x; rw [hp]; rfl
  have e2 : (padStep a).blk = a.blk := by rw [hq]
  have e3 : ∀ x, (padStep a).outByte x = s.outByte x := by intro x; rw [hq, ← hob]; rfl
  have e4 : (padStep a).rB = s.rB := by rw [hq, ← hr]; rfl
  have e5 : (padStep a).optr = 0 := by rw [hq, ← hop]
  have e6 : (padStep a).outlen = s.outlen := by rw [hq, ← hol]
  have e7 : (padStep a).phase = if s.outlen.toNat > 0 then .squeeze else .done := by rw [hq, ← hol]
  have e8 : (padStep a).lanes =
      padState s.rB (s.inlen.toNat % s.rB) s.sfx (absorbAll s.rB s.inputBytes) := by
    rw [hq]; simp only; rw [hs.1, hr, hs.2, hsf]
  generalize padStep a = p at *
  refine ⟨by rw [squeezeLoop_frame]; simp only; rw [e2, hs.2], fun x => ?_⟩
  by_cases h0 : s.outlen.toNat > 0
  · rw [if_pos h0] at e7
    rw [squeezeLoop_outByte _ _ (by omega) e7 (by rw [e5, e6]; exact h0) (by rw [e6]; omega), e3, e5,
      e6, e4, e8]
    simp only [sponge, inputBytes_length]
    simp [State.rB]
  · have : s.outlen.toNat = 0 := by omega
    rw [this, squeezeLoop]
    simp [e3]

/-- How a command can leave KSE in phase DONE: with the whole output produced, by a new invocation if
it was in phase DONE, or in phase DONE already with OPTR, OUTLEN and OUT as they were (41_sponge.md R134
to R136, R139). -/
theorem exec_done {i : Instr} {s t : State} (ha : Safety.AbsorbOk s) (hq : Safety.SqueezeOk s)
    (he : exec i s = .next t) (hd : t.phase = .done) :
    (s.phase ≠ .done ∨ Safety.startsInvocation i = true) ∧ t.optr = t.outlen ∨
      s.phase = .done ∧ t.optr = s.optr ∧ t.outlen = s.outlen ∧ t.outBuf = s.outBuf := by
  have hk : ∀ s, (keccakSteps s).phase = .done → (keccakSteps s).optr = (keccakSteps s).outlen := by
    intro s h
    rcases keccakSteps_frame s with ⟨c, -, e⟩ | ⟨-, e⟩
    · rw [e] at h; cases h
    · rw [e]
  have hw : ∀ f : State → State,
      ((f s).phase = .done → s.phase = .done ∧ (f s).optr = s.optr ∧ (f s).outlen = s.outlen ∧
        (f s).outBuf = s.outBuf) →
      (whenClosed f s).phase = .done →
      s.phase = .done ∧ (whenClosed f s).optr = s.optr ∧ (whenClosed f s).outlen = s.outlen ∧
        (whenClosed f s).outBuf = s.outBuf := by
    intro f hf h
    unfold whenClosed at h ⊢
    split at h
    · cases h
    · rw [if_neg ‹_›]; exact hf h
  cases i <;> injection he with he <;> subst he
  case round =>
    refine .inr (hw _ (fun h => ?_) hd)
    split at h
    · rw [if_pos ‹_›]; rw [roundStep_eq] at h ⊢; exact ⟨h, rfl, rfl, rfl⟩
    · cases h
  case f1600 => exact .inr (hw _ (fun h => by rw [permute_eq] at h ⊢; exact ⟨h, rfl, rfl, rfl⟩) hd)
  case init => unfold initStep at hd; split at hd <;> cases hd
  case absorb =>
    split at hd
    · rename_i hc; rw [absorbStep_frame] at hd; simp [hc.1] at hd
    · cases hd
  case pad =>
    split at hd
    · rename_i hc
      rw [if_pos hc, padStep_eq]
      rw [padStep_eq] at hd
      have h0 : ¬s.outlen.toNat > 0 := fun h => by simp [h] at hd
      exact .inl ⟨.inl (by rw [hc.1]; simp), by simp only [(ha hc.1).2.2.2]; bv_omega⟩
    · cases hd
  case squeeze =>
    split at hd
    · rename_i hc
      have h0 := (hq hc).1
      have hb : s.blockLen = min (s.outlen.toNat - s.optr.toNat) s.rB := rfl
      have hp := squeezeStep_phase s
      have hlt : ¬s.optr.toNat + s.blockLen < s.outlen.toNat := fun h => by
        rw [if_pos h, hc, hd] at hp; cases hp
      have ho : (squeezeStep s).outlen = s.outlen := by rw [squeezeStep_frame]
      rw [if_pos hc, ho]
      exact .inl ⟨.inl (by rw [hc]; simp), BitVec.eq_of_toNat_eq (by rw [squeezeStep_optr]; omega)⟩
    · cases hd
  case pinit | theta | rhopi | chi | iota => exact .inr (hw _ (fun h => ⟨h, rfl, rfl, rfl⟩) hd)
  all_goals exact .inl ⟨.inr rfl, hk _ hd⟩

/-- No command touches the events, the response, the buffer sizes, the epoch or IN. -/
theorem exec_frame (i : Instr) (s : State) : ∃ t, exec i s = .next t ∧
    t.pending = s.pending ∧ t.response = s.response ∧ t.params = s.params ∧ t.epoch = s.epoch ∧
    t.inBuf = s.inBuf ∧ t.inlen = s.inlen := by
  have hk : ∀ s, (keccakSteps s).pending = s.pending ∧ (keccakSteps s).response = s.response ∧
      (keccakSteps s).params = s.params ∧ (keccakSteps s).epoch = s.epoch ∧
      (keccakSteps s).inBuf = s.inBuf ∧ (keccakSteps s).inlen = s.inlen := by
    intro s
    rcases keccakSteps_frame s with ⟨c, -, h⟩ | ⟨-, h⟩
    · rw [h]; simp
    · rw [h]; simp
  have hw : ∀ (f : State → State) s,
      ((f s).pending = s.pending ∧ (f s).response = s.response ∧ (f s).params = s.params ∧
        (f s).epoch = s.epoch ∧ (f s).inBuf = s.inBuf ∧ (f s).inlen = s.inlen) →
      (whenClosed f s).pending = s.pending ∧ (whenClosed f s).response = s.response ∧
        (whenClosed f s).params = s.params ∧ (whenClosed f s).epoch = s.epoch ∧
        (whenClosed f s).inBuf = s.inBuf ∧ (whenClosed f s).inlen = s.inlen := by
    intro f s h
    unfold whenClosed
    split
    · simp
    · exact h
  cases i <;> refine ⟨_, rfl, ?_⟩
  case round =>
    apply hw
    split
    · rw [roundStep_eq]; simp
    · simp
  case init => unfold initStep; split <;> simp
  case absorb =>
    split
    · rw [absorbStep_frame]; simp
    · simp
  case pad =>
    split
    · rw [padStep_eq]; simp
    · simp
  case squeeze =>
    split
    · rw [squeezeStep_frame]; simp
    · simp
  case keccak => exact hk s
  case sha3_224 | sha3_256 | sha3_384 | sha3_512 => exact hk _
  case shake128 | shake256 => exact hk _
  all_goals exact hw _ _ (by simp)

/-- The parameter check raises exactly the error of the order of checks (41_sponge.md R131, 60_exceptions.md
R205). -/
theorem checkParams_eq_some (s : State) (c : ErrCode) :
    checkParams s = some c ↔ Safety.raisesParam c s := by
  unfold checkParams Safety.raisesParam
  by_cases h1 : s.outlen.toNat > s.params.outBytes
  · cases c <;> simp [h1]
  · by_cases h2 : s.rate.toNat + s.cap.toNat ≠ 1600 ∨ s.rate.toNat % 8 ≠ 0 ∨ s.rate.toNat = 0
    · simp only [if_neg h1, if_pos h2]; cases c <;> simp_all
    · simp only [if_neg h1, if_neg h2]; split <;> cases c <;> simp_all

/-- A wrapper is its row's loads and the KECCAK steps (42_wrappers.md R161). -/
theorem exec_row {i : Instr} {w : Safety.Row} (h : Safety.row i = some w) (s : State) :
    exec i s = .next (keccakSteps (w.load s)) := by
  cases i <;> simp [Safety.row] at h <;> subst h <;> rfl

/-- Every command ends in a next state. -/
theorem exec_next (i : Instr) (s : State) : ∃ t, exec i s = .next t :=
  let ⟨t, h, _⟩ := exec_frame i s
  ⟨t, h⟩

/-! ## Registers -/

theorem ofOffset_eq_some (offset : Nat) (reg : Csr) :
    Csr.ofOffset offset = some reg ↔ offset = reg.offset := by
  constructor
  · intro h
    unfold Csr.ofOffset at h
    split at h <;> simp at h <;> subst h <;> rfl
  · rintro rfl
    exact Csr.ofOffset_offset reg

/-- No register stands at an offset that is no multiple of 4 or is above 0x28 (10_state.md R39). -/
theorem ofOffset_isNone (offset : Nat) :
    (Csr.ofOffset offset).isNone = true ↔ offset % 4 ≠ 0 ∨ offset > 0x28 := by
  by_cases h : offset ≤ 0x28
  · interval_cases offset <;> decide
  · have : Csr.ofOffset offset = none := by
      cases ho : Csr.ofOffset offset with
      | none => rfl
      | some reg =>
        have he := (ofOffset_eq_some offset reg).1 ho
        cases reg <;> simp [Csr.offset] at he <;> omega
    simp [this]
    omega

/-- A register write changes the five parameter registers only. -/
theorem writeCsr_frame (reg : Csr) (v : Word) (s : State) : writeCsr reg v s =
    { s with
      rate := (writeCsr reg v s).rate
      cap := (writeCsr reg v s).cap
      sfx := (writeCsr reg v s).sfx
      inlen := (writeCsr reg v s).inlen
      outlen := (writeCsr reg v s).outlen } := by
  cases reg <;> rfl

/-! ## Transactions and steps -/

/-- A command word is written: the command is executed, or ERR_CMD raised. -/
theorem writeCmd_cases (w : Word) (s : State) :
    (∃ i u, decode w = .ok i ∧ exec i s = .next u ∧ writeCmd w s = .next (respond .ok u)) ∨
    (∃ e, decode w = .error e ∧ writeCmd w s = .next (respond .ok (raiseErr .cmd s))) := by
  cases h : decode w with
  | error e => exact .inr ⟨e, rfl, by simp only [writeCmd, h]⟩
  | ok i =>
    obtain ⟨u, hu⟩ := exec_next i s
    exact .inl ⟨i, u, rfl, hu, by simp only [writeCmd, h, hu]⟩

/-- The model's refusal test is the enumeration of 43_host_access.md R184. -/
theorem refuses_iff (x : Transaction) (s : State) : refuses x s = true ↔ Safety.refusedBy x s := by
  have hop := isOpen_iff s
  cases x with
  | rd w o =>
    simp only [refuses, Safety.refusedBy, Bool.or_eq_true, ofOffset_isNone, bne_iff_ne]
    tauto
  | wr w o v =>
    have hn := ofOffset_isNone o
    simp only [refuses, Safety.refusedBy, Bool.or_eq_true, bne_iff_ne]
    cases ho : Csr.ofOffset o with
    | none => simp [ho] at hn ⊢; tauto
    | some reg =>
      have hoo := (ofOffset_eq_some o reg).1 ho
      rw [← hop]
      subst hoo
      cases reg <;> simp [Csr.offset, refusesWriteOf, Csr.isReadOnly, Csr.isParam]
  | rdb sp w o =>
    cases sp <;> simp [refuses, Safety.refusedBy, spaceSize, Space.bytes]
  | wrb sp w o v =>
    have hd : Safety.refusedBy (.wrb sp w o v) s ↔
        (w ≠ 8 ∨ o ≥ sp.bytes s.params ∨ sp = .output ∨ (s.phase = .absorb ∨ s.phase = .squeeze)) :=
      Iff.rfl
    rw [hd, ← hop]
    cases sp <;> simp [refuses, spaceSize, Space.bytes] <;> tauto

/-- Everything a transaction can do: the response is recorded on a state that is the old one, a
command's, ERR_CMD's, or the old one with one parameter register or one byte written. The response is
REFUSED exactly when the transaction is refused. -/
theorem perform_cases (x : Transaction) (s : State) :
    ∃ resp u, perform x s = .next (respond resp u) ∧
      (resp = .refused ↔ refuses x s = true) ∧
      (u = s ∨
       (∃ w i, x = .wr 32 0x00 w ∧ decode w = .ok i ∧ exec i s = .next u) ∨
       (∃ w e, x = .wr 32 0x00 w ∧ decode w = .error e ∧ u = raiseErr .cmd s) ∨
       (∃ reg v, x = .wr 32 reg.offset v ∧ Csr.isParam reg = true ∧ s.isOpen = false ∧
         u = writeCsr reg v s) ∨
       (∃ space offset v, x = .wrb space 8 offset v ∧ space ≠ .output ∧
         offset < spaceSize space s ∧ s.isOpen = false ∧ u = writeSpace space offset v s)) := by
  by_cases hr : refuses x s = true
  · exact ⟨.refused, s, by rw [perform, if_pos hr], by simp [hr], .inl rfl⟩
  · rw [perform, if_neg hr]
    cases x with
    | rd width offset =>
      simp only [refuses, Bool.or_eq_true, not_or] at hr
      cases ho : Csr.ofOffset offset with
      | none => simp [ho] at hr
      | some reg =>
        exact ⟨.okWord (readCsr reg s), s, by simp only [accept, ho], by simp [refuses, hr, ho], .inl rfl⟩
    | wr width offset v =>
      simp only [refuses, Bool.or_eq_true, not_or, bne_iff_ne, ne_eq, not_not] at hr
      obtain ⟨rfl, hr⟩ := hr
      cases ho : Csr.ofOffset offset with
      | none => simp [ho] at hr
      | some reg =>
        have hoff := (ofOffset_eq_some offset reg).1 ho
        simp only [ho, Bool.not_eq_true] at hr
        have hnot : refuses (.wr 32 offset v) s = false := by simp [refuses, ho, hr]
        simp only [hnot, Bool.false_eq_true, iff_false]
        have hreg : reg = .cmd ∨ Csr.isParam reg = true ∧ s.isOpen = false := by
          cases reg <;> simp_all [refusesWriteOf, Csr.isReadOnly, Csr.isParam]
        rcases hreg with rfl | ⟨hp, hop⟩
        · subst hoff
          have ha : accept (.wr 32 Csr.cmd.offset v) s = writeCmd v s := rfl
          rw [ha]
          rcases writeCmd_cases v s with ⟨i, u, hd, he, hw⟩ | ⟨e, hd, hw⟩
          · exact ⟨.ok, u, hw, by simp, .inr (.inl ⟨v, i, rfl, hd, he⟩)⟩
          · exact ⟨.ok, _, hw, by simp, .inr (.inr (.inl ⟨v, e, rfl, hd, rfl⟩))⟩
        · refine ⟨.ok, writeCsr reg v s, ?_, by simp,
            .inr (.inr (.inr (.inl ⟨reg, v, by rw [hoff], hp, hop, rfl⟩)))⟩
          cases reg <;> simp_all [accept, Csr.isParam]
    | rdb space width offset =>
      exact ⟨.okByte (readSpace space offset s), s, rfl, by simp [hr], .inl rfl⟩
    | wrb space width offset v =>
      simp only [refuses, Bool.or_eq_true, not_or, bne_iff_ne, ne_eq, not_not, decide_eq_true_eq,
        Nat.not_le, beq_iff_eq, Bool.not_eq_true] at hr
      obtain ⟨⟨⟨rfl, hs⟩, hout⟩, hop⟩ := hr
      exact ⟨.ok, writeSpace space offset v s, rfl, by simp [refuses, hs, hout, hop],
        .inr (.inr (.inr (.inr ⟨space, offset, v, rfl, hout, hs, hop, rfl⟩)))⟩

/-- No machine has R41(g) beside the effect 43_host_access.md R182 gives a WR of OUTLEN: whatever performs
the transactions, if it stores the value in phase DONE and leaves OPTR and PHASE, a state in phase DONE
goes to one in which OPTR and OUTLEN differ (log entry 6). -/
theorem not_doneOk_of_outlen_write {f : Transaction → State → State}
    (hw : ∀ s v, s.phase = .done → (f (.wr 32 0x18 v) s).outlen = v ∧
      (f (.wr 32 0x18 v) s).optr = s.optr ∧ (f (.wr 32 0x18 v) s).phase = s.phase)
    {s : State} (hs : s.phase = .done) : ∃ v, ¬Safety.DoneOk (f (.wr 32 0x18 v) s) := by
  obtain ⟨hl, ho, hp⟩ := hw s (s.optr + 1) hs
  refine ⟨s.optr + 1, fun h => ?_⟩
  have := h (hp.trans hs)
  rw [hl, ho] at this
  bv_omega

/-- Everything a step can do. -/
theorem step_cases (s : State) :
    (s.pending = [] ∧ step s = .next s) ∨
    (∃ rest, (s.pending = .reset :: rest ∨ ∃ x, s.pending = .resetDuring x :: rest) ∧
      step s = .next (resetEvent { s with pending := rest })) ∨
    (∃ x rest, s.pending = .transaction x :: rest ∧ step s = perform x { s with pending := rest }) := by
  unfold step runNext
  cases h : s.pending with
  | nil => exact .inl ⟨rfl, rfl⟩
  | cons e rest =>
    cases e with
    | transaction x => exact .inr (.inr ⟨x, rest, rfl, rfl⟩)
    | reset => exact .inr (.inl ⟨rest, .inl rfl, rfl⟩)
    | resetDuring x => exact .inr (.inl ⟨rest, .inr ⟨x, rfl⟩, rfl⟩)

/-- No transaction touches the events or the buffer sizes. -/
theorem perform_frame (x : Transaction) (s : State) : ∃ t, perform x s = .next t ∧
    t.pending = s.pending ∧ t.params = s.params ∧ t.epoch = s.epoch := by
  obtain ⟨resp, u, hp, -, rfl | ⟨w, i, -, -, he⟩ | ⟨w, e, -, -, rfl⟩ | ⟨reg, v, -, -, -, rfl⟩ |
    ⟨space, offset, v, -, -, -, -, rfl⟩⟩ := perform_cases x s
  · exact ⟨_, hp, by simp⟩
  · obtain ⟨t, h1, h2, -, h3, h4, -⟩ := exec_frame i s
    rw [he] at h1
    injection h1 with h1
    subst h1
    exact ⟨_, hp, by simp [h2, h3, h4]⟩
  · exact ⟨_, hp, by simp⟩
  · refine ⟨_, hp, ?_⟩
    rw [writeCsr_frame]
    simp
  · exact ⟨_, hp, by cases space <;> simp [writeSpace]⟩

end Sys2Proof.Machine
end

