-- ==== Sys2Proof/Laws/PerInstr.lean ====
section
/-! SUPPORT. Statements made of each command as syntax, one lemma for each constructor. -/

namespace Sys2Proof.Laws.RoundTrip

/-- The command is well formed, its encoding is the zero-extended opcode (30_encoding.md R70: the bits
above OPC are 0), and decoding the encoding gives the command back. -/
def Statement (i : Instr) : Prop :=
  i.wf = true ∧ (encode i).toNat < 256 ∧ decode (encode i) = .ok i ∧
  decodeTableWord 32 (encode i).toNat = some i

theorem pinit : Statement .pinit := by unfold Statement; decide
theorem theta : Statement .theta := by unfold Statement; decide
theorem rhopi : Statement .rhopi := by unfold Statement; decide
theorem chi : Statement .chi := by unfold Statement; decide
theorem iota : Statement .iota := by unfold Statement; decide
theorem round : Statement .round := by unfold Statement; decide
theorem f1600 : Statement .f1600 := by unfold Statement; decide
theorem init : Statement .init := by unfold Statement; decide
theorem absorb : Statement .absorb := by unfold Statement; decide
theorem pad : Statement .pad := by unfold Statement; decide
theorem squeeze : Statement .squeeze := by unfold Statement; decide
theorem keccak : Statement .keccak := by unfold Statement; decide
theorem sha3_224 : Statement .sha3_224 := by unfold Statement; decide
theorem sha3_256 : Statement .sha3_256 := by unfold Statement; decide
theorem sha3_384 : Statement .sha3_384 := by unfold Statement; decide
theorem sha3_512 : Statement .sha3_512 := by unfold Statement; decide
theorem shake128 : Statement .shake128 := by unfold Statement; decide
theorem shake256 : Statement .shake256 := by unfold Statement; decide

end Sys2Proof.Laws.RoundTrip
end

