-- ==== Sys2Proof/Laws/Rounds.lean ====
section
/-! SUPPORT. What each of the five steps of a round does to a lane, said once for each step function
(40_permutation.md R101 to R107). -/

namespace Sys2Proof.Machine

/-- ROTL64 is rotation to the left, the count taken modulo 64 (00_scope.md R14). -/
theorem rotl64_eq (v : Lane) (n : Nat) : rotl64 v n = v.rotateLeft n := by
  apply BitVec.eq_of_getLsbD_eq
  intro i hi
  rw [BitVec.getLsbD_rotateLeft]
  unfold rotl64
  by_cases h : n % 64 = 0
  · simp [h, hi]
  · simp only [if_neg h]
    rw [BitVec.getLsbD_xor, BitVec.getLsbD_shiftLeft, BitVec.getLsbD_ushiftRight]
    by_cases h2 : i < n % 64
    · simp [h2, hi]
    · have : 64 - n % 64 + i ≥ 64 := by omega
      simp [h2, hi, BitVec.getLsbD_of_ge v _ this]

theorem lane_theta (L : Lanes) (x y : Fin 5) :
    (theta L).lane x y =
      L.lane x y ^^^ ((thetaC L).get (x + 4) ^^^ rotl64 ((thetaC L).get (x + 1)) 1) := by
  simp [theta, thetaD]

/-- The walk of rho/pi visits the 24 lanes other than (0,0), each once. -/
theorem lane_rhoPi (L : Lanes) (x y : Fin 5) :
    (rhoPi L).lane y (2 * x + 3 * y) = rotl64 (L.lane x y) (Safety.rhoOffset x y) := by
  have h0 : ∀ v, rotl64 v 0 = v := fun v => rfl
  simp only [rhoPi, rhoPiWalk]
  fin_cases x <;> fin_cases y <;> simp +decide [Lanes.lane_setLane, Safety.rhoOffset, h0]

theorem lane_chi (L : Lanes) (x y : Fin 5) :
    (chi L).lane x y = L.lane x y ^^^ (~~~(L.lane (x + 1) y) &&& L.lane (x + 2) y) := by
  simp [chi]

/-- The LFSR update as a number (40_permutation.md R106). -/
theorem toNat_lfsr (r : Byte) : (lfsr r).toNat = Safety.lfsrNat r.toNat := by
  revert r
  decide +kernel

theorem toNat_lfsrIter (n : Nat) (r : Byte) :
    (lfsrIter n r).toNat = Safety.lfsrAfter n r.toNat := by
  induction n generalizing r with
  | zero => rfl
  | succ n ih => rw [lfsrIter, ih, toNat_lfsr, Safety.lfsrAfter]

/-- IOTA's constant does not depend on the lane it is xored into. -/
theorem iotaLoop_snd (n j : Nat) (r : Byte) (v : Lane) :
    (iotaLoop n j r v).2 = v ^^^ (iotaLoop n j r 0).2 := by
  induction n generalizing j r v with
  | zero => simp [iotaLoop]
  | succ n ih =>
    simp only [iotaLoop]
    rw [ih]
    conv => rhs; rw [ih]
    split
    · simp [BitVec.xor_assoc]
    · simp

/-- IOTA writes lane(0,0) only. -/
theorem lane_iota (L : Lanes) (r : Byte) (x y : Fin 5) :
    (iota L r).1.lane x y =
      if x = 0 ∧ y = 0 then L.lane 0 0 ^^^ (iotaLoop 7 0 r 0).2 else L.lane x y := by
  simp only [iota, Lanes.lane_setLane]
  rw [iotaLoop_snd]

end Sys2Proof.Machine
end

