-- ==== Sys2Proof/Tests/Slice0.lean ====
section
/-! SUPPORT. The model's own tests. Expected values are those of spec/95_test_vectors.md (V<n>) and of the
rules' examples; then one witness for each obligation that has hypotheses. -/

open Sys2Proof
open Sys2Proof.Machine
open Sys2Proof.Safety

namespace Sys2Proof.Tests

/-! ## Small states -/

def nextOf (o : Host.Outcome State Fault Refusal) : Option State :=
  match o with
  | .next t => some t
  | .fault _ => none
  | .refused _ => none

/-- Sixteen bytes of IN, sixty-four of OUT. -/
def small : Config.Params where
  inBytes := 16
  outBytes := 64

def idle : State := State.resetWith small

/-- IN = 61 62 63 with the SHA3-256 parameters. -/
def abc : State :=
  { idle with
    inBuf := [(0, 0x61), (1, 0x62), (2, 0x63)]
    inlen := 3
    rate := 1088
    cap := 512
    sfx := 0x06
    outlen := 32 }

/-- The state of abc after INIT. -/
def opened : State := openInvocation abc

/-- The state of abc after INIT and ABSORB (41_sponge.md R133's example). -/
def absorbed : State :=
  { opened with
    lanes := ((Lanes.zero.setByte 0 0x61).setByte 1 0x62).setByte 2 0x63
    iptr := 3
    blk := 3 }

def squeezing : State := { opened with iptr := 3, blk := 3, phase := .squeeze }

def finished : State := { abc with phase := .done, optr := 32 }

def failed : State := { idle with phase := .error, errcode := .cmd }

/-- RATE = 8: one byte a block, with one byte of input left and a full chunk next. -/
def smallestRate : State := { opened with rate := 8, cap := 1592, inlen := 1 }

def lanesOf (f : Nat → Nat → Lane) : Lanes := Lanes.tabulate fun x y => f x.val y.val

/-- The lanes after a command. -/
def lanesAfter (i : Instr) (s : State) : Option Lanes := (nextOf (exec i s)).map State.lanes

/-- PHASE and ERRCODE after a command. -/
def statusAfter (i : Instr) (s : State) : Option (Phase × ErrCode) :=
  (nextOf (exec i s)).map fun t => (t.phase, t.errcode)

/-- The first n bytes of OUT after a command. -/
def outAfter (n : Nat) (i : Instr) (s : State) : Option (List Byte) :=
  (nextOf (exec i s)).map fun t => (List.range n).map t.outByte

def responseTo (x : Transaction) (s : State) : Option Response :=
  (nextOf (perform x s)).bind State.response

/-! ## WellFormed: an ill-formed term for each check -/

theorem test_wf_every_command : ∀ i : Instr, i.wf = true := by intro i; cases i <;> rfl
theorem test_wf_rd_accepted : (Transaction.rd 32 0x28).wf small = true := by decide
theorem test_wf_rd_width : (Transaction.rd 8 0x04).wf small = false := by decide
theorem test_wf_rd_unaligned : (Transaction.rd 32 0x06).wf small = false := by decide
theorem test_wf_rd_above : (Transaction.rd 32 0x2C).wf small = false := by decide
theorem test_wf_wr_accepted : (Transaction.wr 32 0x00 0).wf small = true := by decide
theorem test_wf_wr_width : (Transaction.wr 16 0x08 0).wf small = false := by decide
theorem test_wf_wr_read_only : (Transaction.wr 32 0x28 0x100).wf small = false := by decide
theorem test_wf_wr_unaligned : (Transaction.wr 32 0x0A 0).wf small = false := by decide
theorem test_wf_rdb_accepted : (Transaction.rdb .output 8 63).wf small = true := by decide
theorem test_wf_rdb_width : (Transaction.rdb .stateBytes 32 0).wf small = false := by decide
theorem test_wf_rdb_offset : (Transaction.rdb .stateBytes 8 200).wf small = false := by decide
theorem test_wf_wrb_accepted : (Transaction.wrb .input 8 15 0).wf small = true := by decide
theorem test_wf_wrb_width : (Transaction.wrb .input 32 0 0).wf small = false := by decide
theorem test_wf_wrb_offset : (Transaction.wrb .input 8 16 0).wf small = false := by decide
theorem test_wf_wrb_out : (Transaction.wrb .output 8 0 0).wf small = false := by decide
theorem test_wf_event : (HostEvent.resetDuring (.rd 32 0x2C)).wf small = false := by decide

/-! ## Decoding: the words of 30_encoding.md R73, written out bit by bit -/

theorem test_decode_group1 :
    decode 0b00000000000000000000000000010000 = .ok .pinit ∧
    decode 0b00000000000000000000000000010001 = .ok .theta ∧
    decode 0b00000000000000000000000000010010 = .ok .rhopi ∧
    decode 0b00000000000000000000000000010011 = .ok .chi ∧
    decode 0b00000000000000000000000000010100 = .ok .iota ∧
    decode 0b00000000000000000000000000010101 = .ok .round ∧
    decode 0b00000000000000000000000000010110 = .ok .f1600 := by decide

theorem test_decode_group2 :
    decode 0b00000000000000000000000000100000 = .ok .init ∧
    decode 0b00000000000000000000000000100001 = .ok .absorb ∧
    decode 0b00000000000000000000000000100010 = .ok .pad ∧
    decode 0b00000000000000000000000000100011 = .ok .squeeze ∧
    decode 0b00000000000000000000000000100100 = .ok .keccak := by decide

theorem test_decode_group3 :
    decode 0b00000000000000000000000000110000 = .ok .sha3_224 ∧
    decode 0b00000000000000000000000000110001 = .ok .sha3_256 ∧
    decode 0b00000000000000000000000000110010 = .ok .sha3_384 ∧
    decode 0b00000000000000000000000000110011 = .ok .sha3_512 ∧
    decode 0b00000000000000000000000000110100 = .ok .shake128 ∧
    decode 0b00000000000000000000000000110101 = .ok .shake256 := by decide

/-- V74. -/
theorem test_decode_illegal :
    decode 0x00000000 = .error .noSuchGroup ∧ decode 0x00000017 = .error .noSuchFunction ∧
    decode 0x0000001F = .error .noSuchFunction ∧ decode 0x00000025 = .error .noSuchFunction ∧
    decode 0x00000036 = .error .noSuchFunction ∧ decode 0x00000040 = .error .noSuchGroup ∧
    decode 0x000000FF = .error .noSuchGroup ∧ decode 0x00000131 = .error .zeroFieldSet ∧
    decode 0x80000016 = .error .zeroFieldSet ∧ decode 0xFFFFFFFF = .error .zeroFieldSet := by decide

/-- What the host asks: the decoder and the first step after reset agree on a table word. -/
theorem test_fetch_first_step :
    decodeTableWord 32 0x10 = some .pinit ∧
    ((nextOf (step (State.reset.withFetchWord 32 0x15))).map fun t => (t.rnd, t.response)) =
      some (1, some .ok) := by decide +kernel

/-! ## The permutation commands -/

/-- V26: after F1600, PINIT gives PERM = 0x00000100. -/
theorem test_pinit : ((nextOf (exec .pinit { idle with r := 0x8E, rnd := 24 })).map permWord) =
    some 0x00000100 := by decide

/-- V10: one bit. -/
theorem test_theta_one_bit : lanesAfter .theta { idle with lanes := Lanes.zero.setLane 0 0 1 } =
    some (lanesOf fun x y =>
      if x = 1 then 1 else if x = 4 then 2 else if x = 0 ∧ y = 0 then 1 else 0) := by decide +kernel

/-- V11: the rotation wraps. -/
theorem test_theta_wrap :
    lanesAfter .theta { idle with lanes := Lanes.zero.setLane 2 3 0x8000000000000000 } =
    some (lanesOf fun x y =>
      if x = 1 then 1
      else if x = 3 ∨ (x = 2 ∧ y = 3) then 0x8000000000000000 else 0) := by decide +kernel

/-- V13, rows y = 0 and y = 4. -/
theorem test_rhopi_rows : ((lanesAfter .rhopi { idle with lanes := lanesOf fun _ _ => 1 }).map
      fun L => [L.get 0, L.get 4].map fun v => [v.x0, v.x1, v.x2, v.x3, v.x4]) =
    some [[0x0000000000000001, 0x0000100000000000, 0x0000080000000000, 0x0000000000200000,
            0x0000000000004000],
          [0x4000000000000000, 0x0080000000000000, 0x0000008000000000, 0x0000020000000000,
            0x0000000000000004]] := by decide +kernel

/-- V20: RHOPI of the state of V10, lanes (4,0), (1,1), (3,2), (0,3). -/
theorem test_rhopi_moves :
    ((lanesAfter .rhopi { idle with lanes := lanesOf fun x y =>
        if x = 1 then 1 else if x = 4 then 2 else if x = 0 ∧ y = 0 then 1 else 0 }).map
      fun L => [L.lane 4 0, L.lane 1 1, L.lane 3 2, L.lane 0 3]) =
    some [0x8000, 0x200000, 0x200, 0x10000000] := by decide +kernel

/-- V15, rows y = 0 and y = 2. -/
theorem test_chi_rows :
    ((lanesAfter .chi { idle with lanes :=
        { Lanes.zero with
          x0 := { x0 := 0xFF, x1 := 0x0F0F0F0F0F0F0F0F, x2 := 0x3333333333333333,
                  x3 := 0x5555555555555555, x4 := 0xFFFFFFFF00000000 }
          x2 := { x0 := 1, x1 := 0, x2 := 0, x3 := 0, x4 := 0 } } }).map
      fun L => [L.get 0, L.get 2].map fun v => [v.x0, v.x1, v.x2, v.x3, v.x4]) =
    some [[0x30303030303030CF, 0x4B4B4B4B4B4B4B4B, 0x9999999933333333, 0x55555555555555AA,
            0xF0F0F0F00F0F0F00],
          [1, 0, 0, 1, 0]] := by decide +kernel

/-- V17. -/
theorem test_iota_first : ((nextOf (exec .iota idle)).map fun t => (t.lanes.lane 0 0, t.r, t.rnd)) =
    some (1, 0x80, 0) := by decide +kernel

/-- V18. -/
theorem test_iota_continues :
    ((nextOf (exec .iota { idle with lanes := Lanes.zero.setLane 0 0 1, r := 0x80 })).map
      fun t => (t.lanes.lane 0 0, t.r)) = some (0x8083, 0xD8) := by decide +kernel

/-- V19. -/
theorem test_round_after_reset :
    ((nextOf (exec .round idle)).map fun t => (t.lanes == Lanes.zero.setLane 0 0 1, t.r, t.rnd)) =
    some (true, 0x80, 1) := by decide +kernel

/-- V75: a 25th ROUND. -/
theorem test_round_25 : statusAfter .round { idle with rnd := 24 } = some (.error, .seq) := by decide

/-- V21. -/
theorem test_f1600_zero :
    ((nextOf (exec .f1600 idle)).map fun t =>
      (t.lanes.lane 0 0, t.lanes.lane 4 4, t.r, t.rnd, t.phase)) =
    some (0xF1258F7940E1DDE7, 0xEAF1FF7B5CECA249, 0x8E, 24, .idle) := by decide +kernel

/-- V27(b). -/
theorem test_f1600_open : nextOf (exec .f1600 opened) = some { opened with
    phase := .error, errcode := .seq } := by decide +kernel

/-! ## The sponge commands -/

/-- 41_sponge.md R132's example, from phase ERROR. -/
theorem test_init_clears_error :
    ((nextOf (exec .init { abc with phase := .error, errcode := .len, iptr := 9, blk := 7 })).map
      fun t => (t.phase, t.errcode, t.iptr, t.blk, t.rate)) =
    some (.absorb, .none, 0, 0, 1088) := by decide

/-- V70: RATE + CAP is 1600 only modulo 2^32. -/
theorem test_init_exact_sum :
    statusAfter .init { abc with rate := 1608, cap := 4294967288 } = some (.error, .param) := by decide

/-- 41_sponge.md R133's example. -/
theorem test_absorb_partial : nextOf (exec .absorb opened) = some absorbed := by decide +kernel

/-- V75: nothing left to absorb. -/
theorem test_absorb_none_left : statusAfter .absorb absorbed = some (.error, .seq) := by decide

/-- 41_sponge.md R134's example. -/
theorem test_pad_abc :
    ((nextOf (exec .pad absorbed)).map fun t =>
      ((List.range 4).map t.lanes.byte, t.phase, t.blk, permWord t)) =
    some ([0x3A, 0x98, 0x5D, 0xA7], .squeeze, 3, 0x00008E18) := by decide +kernel

/-- V75: input not fully absorbed. -/
theorem test_pad_early : statusAfter .pad opened = some (.error, .seq) := by decide

/-- R135: the last block does not permute. -/
theorem test_squeeze_last :
    ((nextOf (exec .squeeze { squeezing with lanes := Lanes.zero.setByte 31 0xAB })).map fun t =>
      (t.outByte 30, t.outByte 31, t.outBuf.length, t.optr, t.phase, t.rnd)) =
    some (0x00, 0xAB, 32, 32, .done, 0) := by decide +kernel

/-- R135 with V21: more output remains, so S is permuted. -/
theorem test_squeeze_permutes :
    ((nextOf (exec .squeeze { squeezing with rate := 8, cap := 1592 })).map fun t =>
      (t.outBuf, t.optr, t.phase, t.lanes.lane 0 0)) =
    some ([(0, 0)], 1, .squeeze, 0xF1258F7940E1DDE7) := by decide +kernel

/-- V64: the conditional permutation at the smallest rate. -/
theorem test_keccak_smallest_rate :
    outAfter 2 .keccak { idle with rate := 8, cap := 1592, sfx := 0x86, outlen := 2 } =
    some [0x75, 0xD4] := by decide +kernel

/-- V73: the output length is checked first. -/
theorem test_keccak_priority :
    statusAfter .keccak { abc with outlen := 65, cap := 511, inlen := 17 } = some (.error, .len) ∧
    statusAfter .keccak { abc with cap := 511, inlen := 17 } = some (.error, .param) ∧
    statusAfter .keccak { abc with inlen := 17 } = some (.error, .inlen) := by decide

/-! ## The wrapper commands: the first eight bytes of the digests -/

/-- V32. -/
theorem test_sha3_224_abc : outAfter 8 .sha3_224 abc =
    some [0xE6, 0x42, 0x82, 0x4C, 0x3F, 0x8C, 0xF2, 0x4A] := by decide +kernel

/-- V34. -/
theorem test_sha3_256_abc : outAfter 8 .sha3_256 abc =
    some [0x3A, 0x98, 0x5D, 0xA7, 0x4F, 0xE2, 0x25, 0xB2] := by decide +kernel

/-- V36 (the last sixteen bytes of it are the second line). -/
theorem test_sha3_384_abc : ((nextOf (exec .sha3_384 abc)).map fun t =>
      (List.range 8).map fun i => t.outByte (32 + i)) =
    some [0x98, 0xD8, 0x8C, 0xEA, 0x92, 0x7A, 0xC7, 0xF5] := by decide +kernel

/-- V40: the source's own value, whole. -/
theorem test_sha3_512_abc : outAfter 64 .sha3_512 abc =
    some ([0xB7, 0x51, 0x85, 0x0B, 0x1A, 0x57, 0x16, 0x8A, 0x56, 0x93, 0xCD, 0x92, 0x4B, 0x6B, 0x09, 0x6E] ++
      [0x08, 0xF6, 0x21, 0x82, 0x74, 0x44, 0xF7, 0x0D, 0x88, 0x4F, 0x5D, 0x02, 0x40, 0xD2, 0x71, 0x2E] ++
      [0x10, 0xE1, 0x16, 0xE9, 0x19, 0x2A, 0xF3, 0xC9, 0x1A, 0x7E, 0xC5, 0x76, 0x47, 0xE3, 0x93, 0x40] ++
      [0x57, 0x34, 0x0B, 0x4C, 0xF4, 0x08, 0xD5, 0xA5, 0x65, 0x92, 0xF8, 0x27, 0x4E, 0xEC, 0x53, 0xF0]) := by
  decide +kernel

/-- V42 and V43: the bytes around the end of the source's literal. -/
theorem test_shake128_abc : ((nextOf (exec .shake128 abc)).map fun t =>
      (t.outByte 0, t.outByte 29, t.outByte 30, t.outByte 31, t.optr, t.rate, t.sfx)) =
    some (0x58, 0x0F, 0x2C, 0xC8, 32, 1344, 0x1F) := by decide +kernel

/-- V44. -/
theorem test_shake256_empty : outAfter 8 .shake256 { idle with outlen := 32 } =
    some [0x46, 0xB9, 0xDD, 0x2B, 0x0B, 0xA8, 0x8D, 0x13] := by decide +kernel

/-- V76: a failing wrapper keeps its loads. -/
theorem test_sha3_384_keeps_loads :
    nextOf (exec .sha3_384 { idle with
      params := { inBytes := 16, outBytes := 16 }, rate := 8, cap := 1592, sfx := 0xFF, outlen := 5 }) =
    some { idle with
      params := { inBytes := 16, outBytes := 16 }, rate := 832, cap := 768, sfx := 0x06, outlen := 48
      phase := .error, errcode := .len } := by decide

/-! ## Transactions -/

/-- V80. -/
theorem test_rd_after_reset :
    ([0x00, 0x04, 0x08, 0x0C, 0x10, 0x14, 0x18, 0x1C, 0x20, 0x24].all fun o =>
      responseTo (.rd 32 o) idle == some (.okWord 0)) = true ∧
    responseTo (.rd 32 0x28) idle = some (.okWord 0x00000100) := by decide

/-- V75 and V27: STATUS of an error. -/
theorem test_rd_status : readCsr .status { idle with phase := .error, errcode := .seq } = 0x54 ∧
    readCsr .status { idle with phase := .done } = 0x03 := by decide

/-- V81. -/
theorem test_wr_sfx : ((nextOf (perform (.wr 32 0x10 0x11F) idle)).map (readCsr .sfx)) =
    some 0x1F := by decide

/-- V82. -/
theorem test_refused :
    ([Transaction.rd 32 0x2C, .rd 32 0x06, .wr 32 0x04 0, .wr 32 0x1C 1, .wr 32 0x20 1, .wr 32 0x24 1,
      .wr 32 0x28 0x100, .rdb .stateBytes 8 200, .wrb .stateBytes 8 200 0, .rdb .output 8 64,
      .wrb .output 8 0 0, .wrb .input 8 16 0, .rd 16 0x04, .rdb .input 32 0].all fun x =>
      nextOf (perform x idle) == some { idle with response := some .refused }) = true := by
  decide +kernel

/-- V83: the write lock, and reads that still succeed. -/
theorem test_write_lock :
    ([Transaction.wr 32 0x08 576, .wr 32 0x0C 1024, .wr 32 0x10 0x1F, .wr 32 0x14 0, .wr 32 0x18 64,
      .wrb .stateBytes 8 0 0xFF, .wrb .input 8 0 0].all fun x =>
      responseTo x opened == some .refused) = true ∧
    responseTo (.rd 32 0x08) opened = some (.okWord 1088) ∧
    responseTo (.rdb .input 8 0) opened = some (.okByte 0x61) ∧
    responseTo (.wr 32 0x08 576) finished = some .ok := by decide +kernel

/-- V84. -/
theorem test_bytes_and_lanes :
    (Lanes.zero.setByte 7 0x80).lane 0 0 = 0x8000000000000000 ∧
    (Lanes.zero.setByte 199 0x12).lane 4 4 = 0x1200000000000000 ∧
    (Lanes.zero.setByte 137 0xAB).lane 2 3 = 0x000000000000AB00 := by decide

/-- V74: an illegal word in an open invocation aborts it. -/
theorem test_illegal_word_open : nextOf (perform (.wr 32 0x00 0) opened) =
    some { opened with phase := .error, errcode := .cmd, response := some .ok } := by decide +kernel

/-- 70_reset_and_hazards.md R230: a RESET in the middle of a command. -/
theorem test_reset_during :
    ((nextOf (step { opened with pending := [.resetDuring (.wr 32 0x00 0x21)] })).map fun t =>
      (t.phase, t.rate, t.inBuf.isEmpty, t.epoch, t.pending.isEmpty)) =
    some (.idle, 0, true, 1, true) := by decide

/-- 30_encoding.md R78(b): what LOAD IN stands for. -/
theorem test_load_in : (AsmLine.loadIn [0x61, 0x62]).events =
    [.transaction (.wrb .input 8 0 0x61), .transaction (.wrb .input 8 1 0x62),
     .transaction (.wr 32 0x14 2)] := by decide

/-! ## One witness for each obligation that has hypotheses

Each shows a concrete state and operands that meet the hypotheses, at the boundary of each clause. -/

theorem witness_DecodeIffEncode : decode 0x35 = .ok .shake256 ∧ 0x35 = encode .shake256 := by decide

theorem witness_LegalWordsAreTheOpcodeMap :
    decode 0x10 = .ok .pinit ∧ ((0x10, .pinit) : Word × Instr) ∈ opcodeMap ∧
    ((0x35, .shake256) : Word × Instr) ∈ opcodeMap := by decide

/-- Both sides of each boundary of R74. -/
theorem witness_IllegalWordRaisesErrCmd :
    ([0x100, 0x00, 0x0F, 0x40, 0x17, 0x25, 0x36].all fun w => decide (illegalWord w)) = true ∧
    ([0x10, 0x16, 0x24, 0x30, 0x35].all fun w => decide (¬illegalWord w)) = true := by
  decide

theorem witness_RegisterMapOffsets :
    Csr.ofOffset 0x00 = some .cmd ∧ Csr.ofOffset 0x28 = some .perm ∧ Csr.ofOffset 0x2C = none ∧
    Csr.ofOffset 0x27 = none := by decide

theorem witness_StepRunsDecodedCommand :
    ({ idle with pending := [issue .pinit, .reset] } : State).pending =
      .transaction (.wr 32 0x00 0x10) :: [.reset] ∧
    decode 0x10 = .ok .pinit ∧
    exec .pinit { idle with pending := [.reset] } = .next { idle with pending := [.reset] } := by
  refine ⟨?_, ?_, ?_⟩ <;> rfl

theorem witness_FetchWordRunsNext :
    decodeTableWord 32 0x16 = some .f1600 ∧ ∃ t, exec .f1600 opened = .next t :=
  ⟨by decide, _, rfl⟩

theorem witness_IdleKeepsAllState : idle.pending = [] := rfl

theorem witness_BufferSizesNeverChange : ∃ t, step { opened with pending := [issue .keccak] } = .next t :=
  ⟨_, rfl⟩

theorem witness_ResetEventGivesResetValues :
    ({ opened with pending := [.reset] } : State).pending = .reset :: [] ∧
    ({ opened with pending := [.resetDuring (.wr 32 0x00 0x24), .reset] } : State).pending =
      .resetDuring (.wr 32 0x00 0x24) :: [.reset] := ⟨rfl, rfl⟩

/-- OUT_BYTES exactly the fixed length, and a SHAKE command with no byte of OUT. -/
theorem witness_FirstCommandAfterReset :
    (row .sha3_224).map (fun w => decide ((w.outlen.getD 0).toNat ≤ 28)) = some true ∧
    (row .shake128).map (fun w => decide ((w.outlen.getD 0).toNat ≤ 0)) = some true := by decide

/-- A state of each phase that meets the invariant, with a step from it. -/
theorem witness_InvariantKeptByEveryStep :
    MachineInv idle ∧ MachineInv opened ∧ MachineInv absorbed ∧ MachineInv squeezing ∧
    MachineInv finished ∧ MachineInv failed ∧
    ∃ t, step { opened with pending := [issue .absorb] } = .next t :=
  ⟨by decide, by decide, by decide, by decide, by decide, by decide, _, rfl⟩

theorem witness_LfsrRegisterNeverZero :
    idle.r ≠ 0 ∧ ∃ t, step { idle with pending := [issue .iota] } = .next t :=
  ⟨by decide, _, rfl⟩

theorem witness_OutlenWritableWhenDone : finished.phase = .done := rfl

theorem witness_R41KeptButByOutlenWrite :
    R41Holds finished ∧ R41Holds squeezing ∧
    (∃ t, step { finished with pending := [.transaction (.wr 32 0x18 32)] } = .next t ∧ R41Holds t) ∧
    ∃ t, step { finished with pending := [.transaction (.wr 32 0x18 64)] } = .next t ∧ ¬DoneOk t :=
  ⟨by decide, by decide, ⟨_, rfl, by decide⟩, _, rfl, by decide⟩

/-- A WR of OUTLEN in phase DONE, and a new invocation from phase DONE. -/
theorem witness_DoneKeepsOutputUntilNextInvocation :
    MachineInv finished ∧ finished.phase = .done ∧
    (∃ t, step { finished with pending := [.transaction (.wr 32 0x18 64)] } = .next t ∧
      t.phase = .done ∧ t.optr ≠ t.outlen ∧ t.optr = finished.optr) ∧
    (∃ t, step { finished with pending := [issue .keccak] } = .next t ∧ t.phase = .done) ∧
    decode (encode .keccak) = .ok .keccak ∧ startsInvocation .keccak = true :=
  ⟨by decide, by decide, ⟨_, rfl, by decide, by decide, by decide⟩, ⟨_, rfl, by decide +kernel⟩,
    by decide, rfl⟩

theorem witness_DoneEnteredWithWholeOutput :
    MachineInv squeezing ∧ squeezing.phase ≠ .done ∧
    ∃ t, step { squeezing with pending := [issue .squeeze] } = .next t ∧ t.phase = .done :=
  ⟨by decide, by decide, _, rfl, by decide⟩

theorem witness_EngineAccessesInRange :
    (MachineInv opened ∧ enabled .absorb opened) ∧ (MachineInv smallestRate ∧ enabled .absorb smallestRate) ∧
    (MachineInv absorbed ∧ enabled .pad absorbed) ∧ (MachineInv squeezing ∧ enabled .squeeze squeezing) := by
  refine ⟨⟨?_, ?_⟩, ⟨?_, ?_⟩, ⟨?_, ?_⟩, ?_, ?_⟩ <;> first | decide | (simp only [enabled]; decide)

theorem witness_LanesAreLittleEndian :
    (0 < 200 ∧ 0 / 8 = (0 : Fin 5).val + 5 * (0 : Fin 5).val) ∧
    (199 < 200 ∧ 199 / 8 = (4 : Fin 5).val + 5 * (4 : Fin 5).val) := by decide

theorem witness_RotateLeftWraps : 63 < 64 ∧ 0 % 64 = 0 ∧ 64 % 64 = 0 ∧ ¬300 % 64 = 0 := by decide

/-- An invocation closed in each of the three phases, and open in each of the two. It meets the
hypotheses of PinitResult, ThetaResult, RhopiResult, ChiResult, IotaResult and
F1600IsTwentyFourRounds. -/
theorem witness_PermutationResults :
    idle.isOpen = false ∧ finished.isOpen = false ∧ failed.isOpen = false ∧
    opened.isOpen = true ∧ squeezing.isOpen = true := by decide

theorem witness_IotaResult :
    (0 : Nat) < 64 ∧ 63 < 64 ∧ idle.isOpen = false ∧ iotaFlips 0x01 0 = true ∧
    ¬((1 : Fin 5) = 0 ∧ (0 : Fin 5) = 0) := by decide

theorem witness_IotaRoundConstants :
    (0 < 24 ∧ idle.isOpen = false ∧ idle.r = roundR.getD 0 0) ∧
    (23 < 24 ∧ ({ idle with r := 0x44 } : State).r = roundR.getD 23 0) := by decide

theorem witness_RoundResult :
    (({ idle with rnd := 23 } : State).isOpen = false ∧ ({ idle with rnd := 23 } : State).rnd.toNat < 24) ∧
    ({ idle with rnd := 24 } : State).rnd = 24 ∧ opened.isOpen = true := by decide

theorem witness_PermutationCommandsKeepTheRest :
    isPermutation .round = true ∧ isPermutation .f1600 = true ∧ opened.phase = .absorb ∧
    squeezing.phase = .squeeze ∧ failed.phase = .error ∧ failed.rnd.toNat < 24 := by decide

/-- RATE = 8 and RATE = 1600 are legal, 0 and 1608 are not (41_sponge.md R131). -/
theorem witness_CheckParamsDecides :
    checkParams { abc with rate := 8, cap := 1592 } = none ∧
    checkParams { abc with rate := 1600, cap := 0 } = none ∧
    checkParams { abc with rate := 0, cap := 1600 } = some .param ∧
    startsInvocation .shake128 = true ∧
    checkParams (loaded .shake128 { abc with outlen := 65 }) = some .len := by decide

/-- INLEN = IN_BYTES and OUTLEN = OUT_BYTES are legal; one more is not. -/
theorem witness_InitResult :
    LegalParams { abc with inlen := 16, outlen := 64 } ∧
    raisesParam .len { abc with outlen := 65 } ∧ raisesParam .param { abc with cap := 511 } ∧
    raisesParam .inlen { abc with inlen := 17 } := by
  unfold raisesParam; decide

/-- A partial chunk, a full chunk, and the three ways not to be enabled. -/
theorem witness_AbsorbResult :
    (opened.phase = .absorb ∧ opened.iptr.toNat < opened.inlen.toNat ∧ opened.chunkLen ≠ opened.rB) ∧
    (smallestRate.phase = .absorb ∧ smallestRate.iptr.toNat < smallestRate.inlen.toNat ∧
      smallestRate.chunkLen = smallestRate.rB) ∧
    ¬(absorbed.phase = .absorb ∧ absorbed.iptr.toNat < absorbed.inlen.toNat) ∧
    ¬(squeezing.phase = .absorb ∧ squeezing.iptr.toNat < squeezing.inlen.toNat) := by decide

/-- With and without the conditional permutation, and not enabled. -/
theorem witness_PadResult :
    (absorbed.phase = .absorb ∧ absorbed.iptr = absorbed.inlen ∧ 8 ≤ absorbed.rate.toNat) ∧
    (let s := { smallestRate with iptr := 1, sfx := 0x80 }
     s.phase = .absorb ∧ s.iptr = s.inlen ∧ 8 ≤ s.rate.toNat ∧ s.sfx.getLsbD 7 = true ∧
     s.blk.toNat = s.rate.toNat / 8 - 1) ∧
    ¬(opened.phase = .absorb ∧ opened.iptr = opened.inlen) := by decide

/-- The last block, a block with more after it, and not enabled. -/
theorem witness_SqueezeResult :
    (squeezing.phase = .squeeze ∧ ¬squeezing.optr.toNat + squeezing.blockLen < squeezing.outlen.toNat) ∧
    (let s := { squeezing with rate := 8 }
     s.phase = .squeeze ∧ s.optr.toNat + s.blockLen < s.outlen.toNat) ∧
    finished.phase ≠ .squeeze := by decide

theorem witness_KeccakComputesSponge :
    LegalParams abc ∧ LegalParams { opened with rate := 8, cap := 1592, inlen := 0, outlen := 0 } ∧
    LegalParams { failed with rate := 1600, cap := 0, inlen := 16, outlen := 64 } := by decide

theorem witness_StepwiseEqualsWhole :
    LegalParams abc ∧ stepwiseCommands abc = [.init, .absorb, .pad, .squeeze] ∧
    stepwiseCommands { abc with inlen := 0, outlen := 0 } = [.init, .pad] := by decide

theorem witness_PermutationCount :
    LegalParams abc ∧ LegalParams { abc with rate := 8, cap := 1592, inlen := 16, outlen := 0 } := by decide

theorem witness_ShorterOutputIsABeginning :
    (8 ≤ 8 ∧ 0 ≤ 0) ∧ Instr.shake256 ∈ [Instr.keccak, .shake128, .shake256] ∧
    (31 : Word).toNat ≤ (64 : Word).toNat ∧ LegalParams (loaded .shake256 { abc with outlen := 64 }) ∧
    LegalParams (loaded .keccak { abc with outlen := 64 }) := by decide

/-- A SHA3 row and a SHAKE row, each at the limit of both buffers. -/
theorem witness_WrapperComputesSponge :
    (row .sha3_512).map (fun w => decide ((w.outlen.getD 0).toNat ≤ small.outBytes)) = some true ∧
    (row .shake128).map (fun w => decide ((w.outlen.getD (64 : Word)).toNat ≤ small.outBytes)) =
      some true ∧
    ({ abc with inlen := 16 } : State).inlen.toNat ≤ small.inBytes := by decide

/-- One byte over each limit. -/
theorem witness_WrapperErrorsKeepTheLoads :
    (row .sha3_512).map (fun w => decide ((w.outlen.getD 0).toNat > 63)) = some true ∧
    (row .shake256).map (fun w => decide ((w.outlen.getD (65 : Word)).toNat > small.outBytes)) =
      some true ∧
    ({ abc with inlen := 17 } : State).inlen.toNat > small.inBytes ∧
    statusAfter .sha3_256 { abc with inlen := 17 } = some (.error, .inlen) := by decide

/-- Two states with the same input and another S, phase, epoch and OUT. -/
theorem witness_WrapperIsDeterministic :
    (row .sha3_224).isSome = true ∧ (row .shake128).isSome = true ∧
    (let s' := { absorbed with optr := 9, outBuf := [(0, 7)], rate := 8, sfx := 1 }
     abc.inlen = s'.inlen ∧ abc.outlen = s'.outlen ∧ abc.inBuf = s'.inBuf ∧
     LegalParams (loaded .sha3_224 abc) ∧ LegalParams (loaded .sha3_224 s') ∧
     LegalParams (loaded .shake128 abc) ∧ LegalParams (loaded .shake128 s')) := by decide

theorem witness_ErrorsArePrecise :
    raises .round .seq { idle with rnd := 24 } ∧ raises .absorb .seq absorbed ∧
    raises .keccak .param idle ∧ raises .shake256 .len { abc with outlen := 65 } ∧
    raises .sha3_224 .inlen { abc with inlen := 17 } := by
  refine ⟨.inl ?_, .inl ?_, .inr ?_, .inr ?_, .inr ?_⟩
  · unfold enabled; decide
  · unfold enabled; decide
  · unfold raisesParam; decide
  · unfold raisesParam; decide
  · unfold raisesParam; decide

theorem witness_NoErrorWithoutCause :
    (∀ c, ¬raises .theta c failed) ∧ (∀ c, ¬raises .init c abc) ∧ ∀ c, ¬raises .squeeze c squeezing := by
  refine ⟨?_, ?_, ?_⟩ <;> intro c <;> cases c <;> unfold raises enabled raisesParam <;> decide

theorem witness_PhaseMachineTable : illegalWord 0 ∧ illegalWord 0x17 := by decide

theorem witness_ErrorPhaseLeftOnlyByNewInvocation :
    failed.phase = .error ∧
    ((nextOf (step { failed with pending := [.reset] })).map State.phase) = some .idle ∧
    ((nextOf (step { abc with phase := .error, pending := [issue .init] })).map State.phase) =
      some .absorb := by decide

theorem witness_EngineDirectionOfAccess : ∃ t, exec .squeeze squeezing = .next t := ⟨_, rfl⟩

/-- Each clause of R184, and an accepted transaction of each kind. -/
theorem witness_RefusedExactlyWhen :
    (refusedBy (.rd 32 0x06) idle ∧ refusedBy (.rd 32 0x2C) idle ∧ refusedBy (.rd 16 0x04) idle ∧
      refusedBy (.wr 32 0x04 0) idle ∧ refusedBy (.wr 32 0x08 0) opened ∧
      refusedBy (.rdb .stateBytes 8 200) idle ∧ refusedBy (.wrb .output 8 0 0) idle ∧
      refusedBy (.wrb .input 8 0 0) squeezing) ∧
    ¬refusedBy (.rd 32 0x28) opened ∧ ¬refusedBy (.wr 32 0x00 0) opened ∧
    ¬refusedBy (.rdb .output 8 63) opened ∧ ¬refusedBy (.wrb .input 8 15 0) idle := by
  refine ⟨⟨?_, ?_, ?_, ?_, ?_, ?_, ?_, ?_⟩, ?_, ?_, ?_, ?_⟩ <;> simp only [refusedBy] <;> decide

theorem witness_WellFormedExactlyAccepted : finished.isOpen = false := rfl

theorem witness_WriteLock :
    opened.phase = .absorb ∧ squeezing.phase = .squeeze ∧
    Csr.outlen ∈ [Csr.rate, .cap, .sfx, .inlen, .outlen] ∧ Space.input ∈ [Space.stateBytes, .input] := by
  decide

theorem witness_ReadsHaveNoSideEffect :
    (∃ width offset, Transaction.rd 32 0x04 = .rd width offset) ∧
    ∃ space width offset, Transaction.rdb .output 8 0 = .rdb space width offset :=
  ⟨⟨_, _, rfl⟩, _, _, _, rfl⟩

theorem witness_ParameterWrites : idle.isOpen = false ∧ failed.isOpen = false := by decide

theorem witness_ByteWrites :
    idle.isOpen = false ∧ 0 < 200 ∧ 199 < 200 ∧ 15 < idle.params.inBytes := by decide

theorem witness_ByteReadValues :
    199 < 200 ∧ 15 < opened.params.inBytes ∧ 63 < opened.params.outBytes := by decide

/-- No byte, and as many as IN holds. -/
theorem witness_LoadInWritesTheInput :
    idle.isOpen = false ∧ ([] : List Byte).length ≤ idle.params.inBytes ∧
    (List.replicate 16 (0xA3 : Byte)).length ≤ idle.params.inBytes ∧ idle.params.legal = true := by decide

end Sys2Proof.Tests
end

section
/-! PROOFS. Family 00_scope.md: what a step leaves of the buffer sizes, and rotation of a lane. -/

namespace Sys2Proof.Machine

/-! ## The frame of a step -/

@[simp] theorem resetEvent_params (s : State) : (resetEvent s).params = s.params := rfl

@[simp] theorem resetEvent_pending (s : State) : (resetEvent s).pending = s.pending := rfl

/-- Every step completes, takes the oldest event and keeps the buffer sizes. -/
theorem step_frame (s : State) :
    ∃ t, step s = .next t ∧ t.pending = s.pending.tail ∧ t.params = s.params := by
  rcases step_cases s with ⟨hp, hs⟩ | ⟨rest, hp, hs⟩ | ⟨x, rest, hp, hs⟩
  · exact ⟨s, hs, by simp [hp], rfl⟩
  · refine ⟨_, hs, ?_, by simp⟩
    rcases hp with hp | ⟨x, hp⟩ <;> simp [hp]
  · obtain ⟨t, ht, hpend, hpar, -⟩ := perform_frame x { s with pending := rest }
    exact ⟨t, hs.trans ht, by simp [hpend, hp], by simp [hpar]⟩

/-- Settles O10: the one state a step can reach has the old buffer sizes, by the frame of a step. -/
theorem bufferSizesNeverChange : Obligations.BufferSizesNeverChange := by
  intro s t hstep
  obtain ⟨u, hu, -, hparams⟩ := step_frame s
  obtain rfl : t = u := Host.Outcome.next.inj (hstep.symm.trans hu)
  exact hparams

/-! ## Rotation of a lane -/

/-- Bit i of the rotated lane is bit i - n of the operand, the index taken modulo 64. -/
theorem getLsbD_rotl64 (v : Lane) (n : Nat) {i : Nat} (hi : i < 64) :
    (rotl64 v n).getLsbD i = v.getLsbD ((i + 64 - n % 64) % 64) := by
  rw [rotl64_eq, BitVec.getLsbD_rotateLeft]
  by_cases hwrap : i < n % 64
  · have hidx : (i + 64 - n % 64) % 64 = 64 - n % 64 + i := by omega
    simp [hwrap, hidx]
  · have hidx : (i + 64 - n % 64) % 64 = i - n % 64 := by omega
    simp [hwrap, hidx, hi]

theorem rotl64_of_mod_eq_zero (v : Lane) {n : Nat} (hn : n % 64 = 0) : rotl64 v n = v := by
  simp [rotl64, hn]

/-- Settles O19: the bits of a rotated lane, and the count that is a multiple of 64. -/
theorem rotateLeftWraps : Obligations.RotateLeftWraps := fun v n =>
  ⟨fun _ hi => getLsbD_rotl64 v n hi, rotl64_of_mod_eq_zero v⟩

end Sys2Proof.Machine
end

section
/-! PROOFS. Family 10_state.md: the register map, lanes and bytes, the reset state, the invariant of
R41 under every step, and what phase DONE keeps. -/

namespace Sys2Proof.Machine

open Sys2Proof.Safety

/-! ## The register map and the encodings (R39, R37) -/

/-- Settles O5: a register stands at its own offset, and where the model finds none is R39's range. -/
theorem registerMapOffsets : Obligations.RegisterMapOffsets := by
  intro offset
  refine ⟨ofOffset_eq_some offset, ?_⟩
  have hnone := ofOffset_isNone offset
  rw [← Option.isSome_iff_exists, ← not_iff_not, Bool.not_eq_true, Option.isSome_eq_false_iff, hnone]
  omega

/-- Settles O51: each encoding is the one the model's table gives. -/
theorem statusEncodings : Obligations.StatusEncodings :=
  ⟨rfl, rfl, rfl, rfl, rfl, rfl, rfl, rfl, rfl, rfl, rfl⟩

/-! ## Lanes and bytes (R22) -/

theorem toNat_laneByte (v : Lane) (j : Nat) : (laneByte v j).toNat = v.toNat / 2 ^ (8 * j) % 256 := by
  simp [laneByte, Nat.shiftRight_eq_div_pow]

/-- A lane is the number whose digits to the base 256 are its bytes. -/
theorem toNat_eq_sum_laneByte (v : Lane) :
    v.toNat = ((List.range 8).map fun j => 2 ^ (8 * j) * (laneByte v j).toNat).sum := by
  have hlt := v.isLt
  simp only [List.range, List.range.loop, List.map_cons, List.map_nil, List.sum_cons, List.sum_nil,
    toNat_laneByte]
  omega

/-- Which lane byte i of S lies in. -/
theorem laneCol_laneRow_iff {i : Nat} (hi : i < 200) (x y : Fin 5) :
    (laneCol (i / 8) = x ∧ laneRow (i / 8) = y) ↔ i / 8 = x.val + 5 * y.val := by
  constructor
  · rintro ⟨rfl, rfl⟩
    simp only [laneCol, laneRow, Fin.ofNat]
    omega
  · intro h
    rw [h]
    exact ⟨laneCol_of x y, laneRow_of x y⟩

/-- Everything a lane write does to the bytes of S. -/
theorem Lanes.byte_setLane (L : Lanes) (x y : Fin 5) (v : Lane) {i : Nat} (hi : i < 200) :
    (L.setLane x y v).byte i =
      if i / 8 = x.val + 5 * y.val then laneByte v (i % 8) else L.byte i := by
  simp only [Lanes.byte, if_pos hi, Lanes.lane_setLane, laneCol_laneRow_iff hi]
  split <;> rfl

/-- Settles O18: the digits of a lane are its bytes, and a lane write replaces those eight bytes. -/
theorem lanesAreLittleEndian : Obligations.LanesAreLittleEndian := by
  intro L x y
  constructor
  · rw [toNat_eq_sum_laneByte (L.lane x y)]
    congr 1
    refine List.map_congr_left fun j hj => ?_
    rw [L.byte_of_lane x y j (List.mem_range.1 hj)]
  · intro v i hi
    rw [L.byte_setLane x y v hi, apply_ite BitVec.toNat, toNat_laneByte]

/-! ## The reset state (R42) -/

@[simp] theorem Lanes.byte_zero (i : Nat) : Lanes.zero.byte i = 0 := by
  simp [Lanes.byte, laneByte]

/-- Settles O56: the registers as the reset state lists them, S all zero, no byte of IN or OUT listed. -/
theorem resetValues : Obligations.ResetValues := fun _ =>
  ⟨fun i _ => Lanes.byte_zero i, rfl, rfl, rfl, rfl, rfl, rfl, rfl, rfl, rfl, rfl, rfl, rfl,
    fun _ => rfl, fun _ => rfl⟩

/-! ## The invariant, by phase (R41) -/

theorem roundCountOk_of_machineInv {s : State} (hinv : MachineInv s) : RoundCountOk s := hinv.1

theorem buffersOk_of_machineInv {s : State} (hinv : MachineInv s) : BuffersOk s :=
  let ⟨_, _, _, _, _, hbuf⟩ := hinv
  hbuf

/-- With no invocation open the clauses about open invocations say nothing. -/
theorem machineInv_of_closed {s : State} (hclosed : s.isOpen = false) (hrnd : RoundCountOk s)
    (herr : ErrorCodeOk s) (hbuf : BuffersOk s) : MachineInv s := by
  have hnot : ¬(s.phase = .absorb ∨ s.phase = .squeeze) := by simp [← isOpen_iff, hclosed]
  exact ⟨hrnd, herr, fun h => absurd h hnot, fun h => absurd (.inl h) hnot,
    fun h => absurd (.inr h) hnot, hbuf⟩

theorem errcode_eq_none {s : State} (herr : ErrorCodeOk s) (hphase : s.phase ≠ .error) :
    s.errcode = .none := by
  by_contra hne
  exact hphase (herr.1 hne)

theorem errorCodeOk_of_none {s : State} (hnone : s.errcode = .none) (hphase : s.phase ≠ .error) :
    ErrorCodeOk s :=
  ⟨fun hne => absurd hnone hne, fun h => absurd h hphase⟩

/-- The invariant does not speak of the response. -/
theorem machineInv_respond {p : Response} {s : State} : MachineInv (respond p s) ↔ MachineInv s :=
  Iff.rfl

theorem machineInv_raiseErr {c : ErrCode} {s : State} (hc : c ≠ .none) (hrnd : RoundCountOk s)
    (hbuf : BuffersOk s) : MachineInv (raiseErr c s) :=
  machineInv_of_closed rfl hrnd (by simp [ErrorCodeOk, hc]) hbuf

theorem machineInv_resetWith (p : Config.Params) : MachineInv (State.resetWith p) :=
  machineInv_of_closed rfl (Nat.zero_le _) (errorCodeOk_of_none rfl nofun) ⟨rfl, rfl, rfl, rfl⟩

/-- Settles O12: the reset state is closed, in phase IDLE, with empty buffers. -/
theorem resetStateMeetsInvariant : Obligations.ResetStateMeetsInvariant := fun p =>
  ⟨machineInv_resetWith p, fun hdone => by cases hdone⟩

theorem machineInv_resetEvent (s : State) : MachineInv (resetEvent s) :=
  machineInv_resetWith s.params

/-! ## The permutation commands keep the invariant -/

theorem machineInv_whenClosed {f : State → State} {s : State} (hinv : MachineInv s)
    (hf : s.isOpen = false → MachineInv (f s)) : MachineInv (whenClosed f s) := by
  cases hopen : s.isOpen with
  | true =>
    rw [whenClosed_open f hopen]
    exact machineInv_raiseErr (by decide) (roundCountOk_of_machineInv hinv)
      (buffersOk_of_machineInv hinv)
  | false =>
    rw [whenClosed_closed f hopen]
    exact hf hopen

/-- The invariant speaks of RND alone among what a round writes. -/
theorem machineInv_of_rounds {s : State} (L : Lanes) (r : Byte) {n : BitVec 5} (hn : n.toNat ≤ 24)
    (hinv : MachineInv s) : MachineInv { s with lanes := L, r := r, rnd := n } :=
  ⟨hn, hinv.2⟩

theorem machineInv_permute {s : State} (hinv : MachineInv s) : MachineInv (permute s) := by
  rw [permute_eq]
  exact machineInv_of_rounds _ _ (by decide) hinv

theorem machineInv_roundStep {s : State} (hlt : s.rnd < 24) (hinv : MachineInv s) :
    MachineInv (roundStep s) := by
  rw [roundStep_eq]
  exact machineInv_of_rounds _ _ (by bv_omega) hinv

/-! ## Starting an invocation -/

/-- The parameter check raises an error proper (60_exceptions.md R205). -/
theorem checkParams_ne_none {s : State} {c : ErrCode} (h : checkParams s = some c) : c ≠ .none := by
  rintro rfl
  exact (checkParams_eq_some s .none).1 h

/-- INIT opens an invocation that meets the invariant whatever the registers were (41_sponge.md R132). -/
theorem machineInv_openInvocation {s : State} (hlegal : checkParams s = none) (hrnd : RoundCountOk s)
    (hbuf : BuffersOk s) : MachineInv (openInvocation s) := by
  obtain ⟨hout, hsum, hmod, hrate, hin⟩ := checkParams_none.1 hlegal
  refine ⟨hrnd, errorCodeOk_of_none rfl nofun, fun _ => ?_, fun _ => ?_, by simp, hbuf⟩
  · exact ⟨hsum, hmod, by simp only [openInvocation_rate]; omega,
      by simp only [openInvocation_rate]; omega, hin, hout, Nat.zero_le _, Nat.zero_le _⟩
  · simp

theorem machineInv_initStep {s : State} (hrnd : RoundCountOk s) (hbuf : BuffersOk s) :
    MachineInv (initStep s) := by
  unfold initStep
  split
  next c hc => exact machineInv_raiseErr (checkParams_ne_none hc) hrnd hbuf
  next hlegal => exact machineInv_openInvocation hlegal hrnd hbuf

/-! ## ABSORB, PAD and SQUEEZE keep the invariant -/

/-- A chunk is a whole block, or the shorter rest of the input (41_sponge.md R133). -/
theorem chunkLen_full_or_last {s : State} (hle : s.iptr.toNat ≤ s.inlen.toNat) :
    (s.chunkLen = s.rB ∧ s.iptr.toNat + s.rB ≤ s.inlen.toNat) ∨
    (s.chunkLen < s.rB ∧ s.iptr.toNat + s.chunkLen = s.inlen.toNat) := by
  unfold State.chunkLen
  omega

/-- An enabled ABSORB (R41(e)): after a full chunk IPTR stays a multiple of the block size, after a
shorter one no input remains. -/
theorem machineInv_absorbStep {s : State} (hinv : MachineInv s) (hphase : s.phase = .absorb)
    (hmore : s.iptr.toNat < s.inlen.toNat) : MachineInv (absorbStep s) := by
  obtain ⟨hrnd, herr, hopen, habs, -, hbuf⟩ := hinv
  obtain ⟨hsum, hmod, hlo, hhi, hin, hout, -, hoptr⟩ := hopen (.inl hphase)
  obtain ⟨hblk, -, hzero, hoptr0⟩ := habs hphase
  have hrB : s.rB = s.rate.toNat / 8 := rfl
  have hmultiple : s.iptr.toNat % s.rB = 0 := by rw [hrB, ← hblk, hzero hmore]; rfl
  have hiptr : (s.iptr + BitVec.ofNat 32 s.chunkLen).toNat = s.iptr.toNat + s.chunkLen :=
    xorChunk_iptr s
  rw [absorbStep_eq]
  rcases chunkLen_full_or_last hmore.le with ⟨hfull, hfits⟩ | ⟨hshort, hlast⟩
  · simp only [if_pos hfull]
    refine ⟨Nat.le_refl 24, herr, fun _ => ?_, fun _ => ⟨?_, Nat.zero_le _, fun _ => rfl, hoptr0⟩,
      by simp [hphase], hbuf⟩
    · exact ⟨hsum, hmod, hlo, hhi, hin, hout, by simp only [hiptr]; omega, hoptr⟩
    · simp only [hiptr, ← hrB]
      rw [hfull, Nat.add_mod_right, hmultiple]
      rfl
  · simp only [if_neg hshort.ne]
    have hblk' : (BitVec.ofNat 8 s.chunkLen).toNat = s.chunkLen := by
      rw [BitVec.toNat_ofNat]
      omega
    refine ⟨hrnd, herr, fun _ => ?_, fun _ => ⟨?_, ?_, ?_, hoptr0⟩, by simp [hphase], hbuf⟩
    · exact ⟨hsum, hmod, hlo, hhi, hin, hout, by simp only [hiptr]; omega, hoptr⟩
    · simp only [hiptr, hblk', ← hrB]
      rw [Nat.add_mod, hmultiple, Nat.zero_add, Nat.mod_mod, Nat.mod_eq_of_lt hshort]
    · simp only [hblk']
      omega
    · simp only [hiptr]
      omega

/-- An enabled PAD: OPTR is 0, so phase SQUEEZE begins as R41(f) asks. -/
theorem machineInv_padStep {s : State} (hinv : MachineInv s) (hphase : s.phase = .absorb) :
    MachineInv (padStep s) := by
  obtain ⟨-, herr, hopen, habs, -, hbuf⟩ := hinv
  obtain ⟨-, -, -, hoptr0⟩ := habs hphase
  have hnone : s.errcode = .none := errcode_eq_none herr (by simp [hphase])
  rw [padStep_eq]
  by_cases hout : s.outlen.toNat > 0
  · simp only [if_pos hout]
    refine ⟨Nat.le_refl 24, errorCodeOk_of_none hnone nofun, fun _ => hopen (.inl hphase), nofun,
      fun _ => ⟨?_, ?_⟩, hbuf⟩
    · simpa [hoptr0] using hout
    · simp [hoptr0]
  · simp only [if_neg hout]
    exact machineInv_of_closed rfl (Nat.le_refl 24) (errorCodeOk_of_none hnone nofun) hbuf

/-- A block is a whole one with output remaining after it, or the rest of the output
(41_sponge.md R135). -/
theorem blockLen_full_or_last {s : State} (hle : s.optr.toNat ≤ s.outlen.toNat) :
    (s.blockLen = s.rB ∧ s.optr.toNat + s.blockLen < s.outlen.toNat) ∨
    s.optr.toNat + s.blockLen = s.outlen.toNat := by
  unfold State.blockLen
  omega

/-- The block SQUEEZE copies lies inside OUT. -/
theorem buffersOk_copyBlock {s : State} (hbuf : BuffersOk s)
    (hfits : s.optr.toNat + s.blockLen ≤ s.params.outBytes) : BuffersOk (copyBlock s) := by
  obtain ⟨hinwf, houtwf, hinbelow, houtbelow⟩ := hbuf
  exact ⟨hinwf, Memory.wf_writeBytes _ _ _ houtwf, hinbelow,
    Memory.below_writeBytes _ _ hfits houtbelow⟩

/-- An enabled SQUEEZE (R41(f)): a block with output remaining is a whole one, and otherwise the phase
is DONE. -/
theorem machineInv_squeezeStep {s : State} (hinv : MachineInv s) (hphase : s.phase = .squeeze) :
    MachineInv (squeezeStep s) := by
  obtain ⟨hrnd, herr, hopen, -, hsq, hbuf⟩ := hinv
  obtain ⟨hsum, hmod, hlo, hhi, hin, hout, hiptr, hoptr⟩ := hopen (.inr hphase)
  obtain ⟨hlt, hmultiple⟩ := hsq hphase
  have hnone : s.errcode = .none := errcode_eq_none herr (by simp [hphase])
  have hnext := copyBlock_optr s
  have hcopied : BuffersOk (copyBlock s) := buffersOk_copyBlock hbuf (by
    have := blockLen_full_or_last hoptr
    omega)
  rw [squeezeStep_eq]
  rcases blockLen_full_or_last hoptr with ⟨hfull, hremains⟩ | hlast
  · rw [if_pos hremains]
    refine ⟨Nat.le_refl 24, herr, fun _ => ?_, fun habs => ?_, fun _ => ⟨?_, ?_⟩, hcopied⟩
    · exact ⟨hsum, hmod, hlo, hhi, hin, hout, hiptr, by simp only [hnext]; exact hremains.le⟩
    · exact absurd (hphase.symm.trans habs) (by decide)
    · simp only [hnext]
      exact hremains
    · simp only [hnext, hfull]
      exact (Nat.add_mod_right _ _).trans hmultiple
  · rw [if_neg hlast.not_lt]
    exact machineInv_of_closed rfl hrnd (errorCodeOk_of_none hnone nofun) hcopied

/-! ## KECCAK -/

theorem machineInv_absorbLoop (n : Nat) {s : State} (hinv : MachineInv s) (hphase : s.phase = .absorb) :
    MachineInv (absorbLoop n s) := by
  induction n generalizing s with
  | zero => exact hinv
  | succ n ih =>
    rw [absorbLoop]
    split
    next hmore =>
      exact ih (machineInv_absorbStep hinv hphase hmore) (by rw [absorbStep_frame]; exact hphase)
    next => exact hinv

theorem machineInv_squeezeLoop (n : Nat) {s : State} (hinv : MachineInv s) :
    MachineInv (squeezeLoop n s) := by
  induction n generalizing s with
  | zero => exact hinv
  | succ n ih =>
    rw [squeezeLoop]
    split
    next hphase => exact ih (machineInv_squeezeStep hinv hphase)
    next => exact hinv

/-- KECCAK, from any phase: INIT's state, then its loops and PAD, each keeping the invariant. -/
theorem machineInv_keccakSteps {s : State} (hrnd : RoundCountOk s) (hbuf : BuffersOk s) :
    MachineInv (keccakSteps s) := by
  unfold keccakSteps
  split
  next c hc => exact machineInv_raiseErr (checkParams_ne_none hc) hrnd hbuf
  next hlegal =>
    have habsorbed := machineInv_absorbLoop s.inlen.toNat
      (machineInv_openInvocation hlegal hrnd hbuf) rfl
    exact machineInv_squeezeLoop _ (machineInv_padStep habsorbed (by rw [absorbLoop_frame]; rfl))

/-! ## Every command, transaction and step keeps the invariant -/

theorem machineInv_exec {i : Instr} {s t : State} (hinv : MachineInv s) (he : exec i s = .next t) :
    MachineInv t := by
  have hrnd := roundCountOk_of_machineInv hinv
  have hbuf := buffersOk_of_machineInv hinv
  have hseq : MachineInv (raiseErr .seq s) := machineInv_raiseErr (by decide) hrnd hbuf
  cases i <;> obtain rfl := Host.Outcome.next.inj he
  case pinit => exact machineInv_whenClosed hinv fun _ => machineInv_of_rounds _ _ (Nat.zero_le _) hinv
  case theta | rhopi | chi | iota =>
    exact machineInv_whenClosed hinv fun _ => machineInv_of_rounds _ _ hrnd hinv
  case round =>
    refine machineInv_whenClosed hinv fun _ => ?_
    split
    next hlt => exact machineInv_roundStep hlt hinv
    next => exact hseq
  case f1600 => exact machineInv_whenClosed hinv fun _ => machineInv_permute hinv
  case init => exact machineInv_initStep hrnd hbuf
  case absorb =>
    split
    next henabled => exact machineInv_absorbStep hinv henabled.1 henabled.2
    next => exact hseq
  case pad =>
    split
    next henabled => exact machineInv_padStep hinv henabled.1
    next => exact hseq
  case squeeze =>
    split
    next henabled => exact machineInv_squeezeStep hinv henabled
    next => exact hseq
  case keccak | sha3_224 | sha3_256 | sha3_384 | sha3_512 | shake128 | shake256 =>
    exact machineInv_keccakSteps hrnd hbuf

/-- A register write with no invocation open: no clause that is left speaks of the registers. -/
theorem machineInv_writeCsr {reg : Csr} {v : Word} {s : State} (hinv : MachineInv s)
    (hclosed : s.isOpen = false) : MachineInv (writeCsr reg v s) := by
  obtain ⟨hrnd, herr, -, -, -, hbuf⟩ := hinv
  rw [writeCsr_frame]
  exact machineInv_of_closed hclosed hrnd herr hbuf

/-- A byte write with no invocation open, at an offset its space has. -/
theorem machineInv_writeSpace {space : Space} {offset : Nat} {v : Byte} {s : State}
    (hinv : MachineInv s) (hclosed : s.isOpen = false) (hin : offset < spaceSize space s) :
    MachineInv (writeSpace space offset v s) := by
  obtain ⟨hrnd, herr, -, -, -, hinwf, houtwf, hinbelow, houtbelow⟩ := id hinv
  cases space with
  | stateBytes => exact machineInv_of_rounds _ s.r hrnd hinv
  | input =>
    exact machineInv_of_closed hclosed hrnd herr
      ⟨Memory.wf_set _ _ hinwf, houtwf, Memory.below_set _ hin hinbelow, houtbelow⟩
  | output => exact hinv

theorem machineInv_perform {x : Transaction} {s t : State} (hinv : MachineInv s)
    (hperform : perform x s = .next t) : MachineInv t := by
  obtain ⟨resp, u, hresult, -, hcases⟩ := perform_cases x s
  obtain rfl := Host.Outcome.next.inj (hresult.symm.trans hperform)
  rw [machineInv_respond]
  rcases hcases with rfl | ⟨w, i, -, -, he⟩ | ⟨w, e, -, -, rfl⟩ | ⟨reg, v, -, -, hclosed, rfl⟩ |
    ⟨space, offset, v, -, -, hin, hclosed, rfl⟩
  · exact hinv
  · exact machineInv_exec hinv he
  · exact machineInv_raiseErr (by decide) (roundCountOk_of_machineInv hinv)
      (buffersOk_of_machineInv hinv)
  · exact machineInv_writeCsr hinv hclosed
  · exact machineInv_writeSpace hinv hclosed hin

/-- Settles O14, by the three things a step can be: nothing, a RESET event, a transaction. -/
theorem invariantKeptByEveryStep : Obligations.InvariantKeptByEveryStep := by
  intro s t hinv hstep
  rcases step_cases s with ⟨-, hs⟩ | ⟨rest, -, hs⟩ | ⟨x, rest, -, hs⟩
  · obtain rfl := Host.Outcome.next.inj (hs.symm.trans hstep)
    exact hinv
  · obtain rfl := Host.Outcome.next.inj (hs.symm.trans hstep)
    exact machineInv_resetEvent _
  · exact machineInv_perform (s := { s with pending := rest }) hinv (hs.symm.trans hstep)

/-! ## Phase DONE (R41(g)) -/

theorem writeCsr_outlen_of_ne {reg : Csr} (v : Word) (s : State) (hreg : reg ≠ .outlen) :
    (writeCsr reg v s).outlen = s.outlen := by
  cases reg
  case outlen => exact absurd rfl hreg
  all_goals rfl

/-- A register write that is not refused (43_host_access.md R182). -/
theorem perform_wr_param {reg : Csr} {s : State} (v : Word) (hparam : Csr.isParam reg = true)
    (hclosed : s.isOpen = false) :
    perform (.wr 32 reg.offset v) s = .next (respond .ok (writeCsr reg v s)) := by
  cases reg <;> simp [Csr.isParam] at hparam <;>
    simp [perform, refuses, accept, Csr.ofOffset_offset, refusesWriteOf, Csr.isReadOnly, hclosed]

/-- In t the whole output is there, and it was the transaction x that completed it: s is not in phase
DONE, or x is a command that starts an invocation. -/
def CompletesOutput (x : Transaction) (s t : State) : Prop :=
  t.optr = t.outlen ∧
    (s.phase ≠ .done ∨
      ∃ w i, x = .wr 32 0x00 w ∧ decode w = .ok i ∧ startsInvocation i = true)

/-- The transaction x takes s, in phase DONE, to t with OPTR and OUT kept, and OUTLEN too unless x
writes it. -/
def KeepsOutput (x : Transaction) (s t : State) : Prop :=
  s.phase = .done ∧ t.optr = s.optr ∧ t.outByte = s.outByte ∧
    (t.outlen = s.outlen ∨
      ∃ v, x = .wr 32 0x18 v ∧ t = { s with outlen := v, response := some .ok })

/-- OUT reads the same where the buffer and the epoch are the same. -/
theorem outByte_congr {s t : State} (hbuf : t.outBuf = s.outBuf) (hepoch : t.epoch = s.epoch) :
    t.outByte = s.outByte := by
  funext a
  simp only [State.outByte, hbuf, hepoch]

/-- The two ways a transaction can lead to phase DONE. -/
theorem perform_done {x : Transaction} {s t : State} (habs : AbsorbOk s) (hsq : SqueezeOk s)
    (hperform : perform x s = .next t) (hdone : t.phase = .done) :
    CompletesOutput x s t ∨ KeepsOutput x s t := by
  obtain ⟨t', ht', -, -, hepoch⟩ := perform_frame x s
  obtain rfl := Host.Outcome.next.inj (ht'.symm.trans hperform)
  obtain ⟨resp, u, hresult, -, hcases⟩ := perform_cases x s
  obtain rfl := Host.Outcome.next.inj (hresult.symm.trans hperform)
  rcases hcases with rfl | ⟨w, i, hx, hdecode, he⟩ | ⟨w, e, -, -, rfl⟩ |
    ⟨reg, v, rfl, hparam, hclosed, rfl⟩ | ⟨space, offset, v, -, hspace, -, -, rfl⟩
  · exact .inr ⟨hdone, rfl, rfl, .inl rfl⟩
  · rcases exec_done habs hsq he hdone with ⟨hnew, hwhole⟩ | ⟨hphase, hoptr, houtlen, hbuf⟩
    · exact .inl ⟨hwhole, hnew.imp id fun hstarts => ⟨w, i, hx, hdecode, hstarts⟩⟩
    · exact .inr ⟨hphase, hoptr, outByte_congr hbuf hepoch, .inl houtlen⟩
  · cases hdone
  · rw [perform_wr_param v hparam hclosed] at hresult
    obtain rfl : Response.ok = resp := by
      simpa using congrArg State.response (Host.Outcome.next.inj hresult)
    right
    rw [writeCsr_frame] at hdone
    refine ⟨hdone, by rw [writeCsr_frame]; rfl, by rw [writeCsr_frame]; rfl, ?_⟩
    by_cases hreg : reg = .outlen
    · exact .inr ⟨v, by rw [hreg]; rfl, by rw [hreg]; rfl⟩
    · exact .inl (writeCsr_outlen_of_ne v s hreg)
  · cases space with
    | stateBytes => exact .inr ⟨hdone, rfl, rfl, .inl rfl⟩
    | input => exact .inr ⟨hdone, rfl, rfl, .inl rfl⟩
    | output => exact absurd rfl hspace

/-- The ways a step can lead to phase DONE: no event, or a transaction; a RESET event leads to IDLE. -/
theorem step_done {s t : State} (hinv : MachineInv s) (hstep : step s = .next t)
    (hdone : t.phase = .done) :
    t = s ∨ ∃ x rest, s.pending = .transaction x :: rest ∧
      (CompletesOutput x { s with pending := rest } t ∨ KeepsOutput x { s with pending := rest } t) := by
  obtain ⟨-, -, -, habs, hsq, -⟩ := hinv
  rcases step_cases s with ⟨-, hs⟩ | ⟨rest, -, hs⟩ | ⟨x, rest, hpending, hs⟩
  · exact .inl (Host.Outcome.next.inj (hstep.symm.trans hs))
  · obtain rfl := Host.Outcome.next.inj (hs.symm.trans hstep)
    cases hdone
  · exact .inr ⟨x, rest, hpending,
      perform_done (s := { s with pending := rest }) habs hsq (hs.symm.trans hstep) hdone⟩

/-- Settles O58: a step that leads to phase DONE without completing an output starts in phase DONE. -/
theorem doneEnteredWithWholeOutput : Obligations.DoneEnteredWithWholeOutput := by
  intro s t hinv hphase hstep hdone
  rcases step_done hinv hstep hdone with rfl | ⟨x, rest, -, ⟨hwhole, -⟩ | ⟨hbefore, -⟩⟩
  · exact absurd hdone hphase
  · exact hwhole
  · exact absurd hbefore hphase

/-- Settles O59: from phase DONE the whole of a new output is there only by a command that starts an
invocation, and all else keeps OPTR and OUT. -/
theorem doneKeepsOutputUntilNextInvocation : Obligations.DoneKeepsOutputUntilNextInvocation := by
  intro s t hinv hphase hstep hdone
  rcases step_done hinv hstep hdone with
    rfl | ⟨x, rest, hpending, ⟨hwhole, hnot | ⟨w, i, rfl, hdecode, hstarts⟩⟩ | ⟨-, hoptr, hout, -⟩⟩
  · exact .inl ⟨rfl, fun _ => rfl⟩
  · exact absurd hphase hnot
  · exact .inr ⟨w, rest, i, hpending, hdecode, hstarts, hwhole⟩
  · exact .inl ⟨hoptr, congrFun hout⟩

/-- Settles O57: in phase DONE a step that does not complete an output keeps OPTR, so R41(g) fails only
where OUTLEN is given a value other than OPTR. -/
theorem r41KeptButByOutlenWrite : Obligations.R41KeptButByOutlenWrite := by
  rintro s t ⟨hinv, hdoneOk⟩ hstep
  have hinv' : MachineInv t := invariantKeptByEveryStep s t hinv hstep
  by_cases hdone : t.phase = .done
  · rcases step_done hinv hstep hdone with
      rfl | ⟨x, rest, hpending, ⟨hwhole, -⟩ | ⟨hphase, hoptr, -, houtlen | ⟨v, rfl, rfl⟩⟩⟩
    · exact .inl ⟨hinv, hdoneOk⟩
    · exact .inl ⟨hinv', fun _ => hwhole⟩
    · exact .inl ⟨hinv', fun _ => (hoptr.trans (hdoneOk hphase)).trans houtlen.symm⟩
    · by_cases hv : v = s.optr
      · exact .inl ⟨hinv', fun _ => hv.symm⟩
      · exact .inr ⟨hphase, v, rest, hv, hpending, rfl⟩
  · exact .inl ⟨hinv', fun h => absurd h hdone⟩

end Sys2Proof.Machine
end

section
/-! PROOFS. Family 20_memory.md: the bytes the engine touches exist, it reads no byte of OUT and writes
none of IN, and a host read changes nothing. -/

namespace Sys2Proof.Machine

open Sys2Proof.Safety

/-! ## The bytes the engine touches exist (R56) -/

/-- While an invocation is open a block is 1 to 200 bytes. -/
theorem rB_of_openOk {s : State} (hopen : OpenOk s) (hphase : s.phase = .absorb ∨ s.phase = .squeeze) :
    1 ≤ s.rB ∧ s.rB ≤ 200 := by
  obtain ⟨-, -, hlo, hhi, -⟩ := hopen hphase
  unfold State.rB
  omega

/-- Where input remains, the next chunk is not empty and lies within it. -/
theorem chunkLen_bounds {s : State} (hrB : 1 ≤ s.rB) (hmore : s.iptr.toNat < s.inlen.toNat) :
    1 ≤ s.chunkLen ∧ s.chunkLen ≤ s.rB ∧ s.iptr.toNat + s.chunkLen ≤ s.inlen.toNat := by
  unfold State.chunkLen
  omega

/-- Where output remains, the next block is not empty and lies within it. -/
theorem blockLen_bounds {s : State} (hrB : 1 ≤ s.rB) (hmore : s.optr.toNat < s.outlen.toNat) :
    1 ≤ s.blockLen ∧ s.blockLen ≤ s.rB ∧ s.optr.toNat + s.blockLen ≤ s.outlen.toNat := by
  unfold State.blockLen
  omega

/-- Settles O17: the block size is legal in both open phases, and R41(d) to (f) bound the pointers. -/
theorem engineAccessesInRange : Obligations.EngineAccessesInRange := by
  rintro s ⟨-, -, hopen, habs, hsq, -⟩
  refine ⟨?absorb, ?pad, ?squeeze⟩
  case absorb =>
    rintro ⟨hphase, hmore⟩
    obtain ⟨hpos, hle⟩ := rB_of_openOk hopen (.inl hphase)
    obtain ⟨-, -, -, -, hin, -⟩ := hopen (.inl hphase)
    obtain ⟨hn, hnB, hfits⟩ := chunkLen_bounds hpos hmore
    exact ⟨hn, hnB, hle, hfits, hin⟩
  case pad =>
    rintro ⟨hphase, -⟩
    obtain ⟨hpos, hle⟩ := rB_of_openOk hopen (.inl hphase)
    obtain ⟨-, hblk, -⟩ := habs hphase
    exact ⟨hblk, hpos, by omega⟩
  case squeeze =>
    intro hphase
    obtain ⟨hpos, hle⟩ := rB_of_openOk hopen (.inr hphase)
    obtain ⟨-, -, -, -, -, hout, -⟩ := hopen (.inr hphase)
    obtain ⟨hmore, -⟩ := hsq hphase
    obtain ⟨hn, hnB, hfits⟩ := blockLen_bounds hpos hmore
    exact ⟨hn, hnB, hle, hfits, hout⟩

/-! ## The engine does not read OUT (R65) -/

/-- At s the meaning f does not read OUT: one choice of written bytes serves every content o of OUT, and
the rest of the state comes out the same. -/
def OutputBlindAt (f : State → State) (s : State) : Prop :=
  ∃ written : Nat → Option Byte, ∀ o : Memory, ∃ o' : Memory,
    f { s with outBuf := o } = { f s with outBuf := o' } ∧
    ∀ a, o'.get? a = (written a).or (o.get? a)

/-- A meaning that carries OUT along untouched does not read it. -/
theorem outputBlindAt_of_carries {f : State → State} {s : State}
    (hf : ∀ o, f { s with outBuf := o } = { f s with outBuf := o }) : OutputBlindAt f s :=
  ⟨fun _ => none, fun o => ⟨o, hf o, fun _ => rfl⟩⟩

/-- Only what f does at s, whatever OUT holds, matters: so a branch may be replaced by the side taken. -/
theorem OutputBlindAt.congr {f g : State → State} {s : State} (hg : OutputBlindAt g s)
    (hfg : ∀ o, f { s with outBuf := o } = g { s with outBuf := o }) : OutputBlindAt f s := by
  obtain ⟨written, hwritten⟩ := hg
  have hs : f s = g s := hfg s.outBuf
  refine ⟨written, fun o => ?_⟩
  rw [hfg o, hs]
  exact hwritten o

/-- The bytes written by f and then by g: where both write, g's stay. -/
theorem OutputBlindAt.comp {f g : State → State} {s : State} (hg : OutputBlindAt g (f s))
    (hf : OutputBlindAt f s) : OutputBlindAt (fun u => g (f u)) s := by
  obtain ⟨first, hfirst⟩ := hf
  obtain ⟨second, hsecond⟩ := hg
  refine ⟨fun a => (second a).or (first a), fun o => ?_⟩
  obtain ⟨o₁, hrun₁, hget₁⟩ := hfirst o
  obtain ⟨o₂, hrun₂, hget₂⟩ := hsecond o₁
  exact ⟨o₂, (congrArg g hrun₁).trans hrun₂, fun a => by rw [hget₂, hget₁, Option.or_assoc]⟩

theorem outputBlindAt_raiseErr (c : ErrCode) (s : State) : OutputBlindAt (raiseErr c) s :=
  outputBlindAt_of_carries fun _ => rfl

/-- The enabling condition of a command does not read OUT, so neither does the command. -/
theorem outputBlindAt_ite {c : State → Prop} [DecidablePred c] {f g : State → State} {s : State}
    (hc : ∀ o, c { s with outBuf := o } ↔ c s) (hf : OutputBlindAt f s) (hg : OutputBlindAt g s) :
    OutputBlindAt (fun u => if c u then f u else g u) s := by
  by_cases h : c s
  · exact hf.congr fun o => if_pos ((hc o).2 h)
  · exact hg.congr fun o => if_neg ((hc o).not.2 h)

theorem outputBlindAt_whenClosed {f : State → State} {s : State} (hf : OutputBlindAt f s) :
    OutputBlindAt (whenClosed f) s :=
  outputBlindAt_ite (fun _ => Iff.rfl) (outputBlindAt_raiseErr .seq s) hf

theorem outputBlindAt_permute (s : State) : OutputBlindAt permute s :=
  outputBlindAt_of_carries fun o => by rw [permute_eq, permute_eq]

/-- The parameter check does not read OUT (41_sponge.md R131): a meaning that it guards is blind to OUT
if what it does after a passed check is. -/
theorem outputBlindAt_of_check {f g : State → State} {s : State}
    (hfail : ∀ u c, checkParams u = some c → f u = raiseErr c u)
    (hpass : ∀ o, checkParams { s with outBuf := o } = none →
      f { s with outBuf := o } = g { s with outBuf := o })
    (hg : OutputBlindAt g s) : OutputBlindAt f s := by
  have hcheck : ∀ o, checkParams { s with outBuf := o } = checkParams s := fun _ => rfl
  cases h : checkParams s with
  | some c => exact (outputBlindAt_raiseErr c s).congr fun o => hfail _ c ((hcheck o).trans h)
  | none => exact hg.congr fun o => hpass o ((hcheck o).trans h)

theorem outputBlindAt_openInvocation (s : State) : OutputBlindAt openInvocation s :=
  outputBlindAt_of_carries fun _ => rfl

theorem outputBlindAt_initStep (s : State) : OutputBlindAt initStep s :=
  outputBlindAt_of_check (fun _ _ h => by simp only [initStep, h])
    (fun _ h => by simp only [initStep, h]) (outputBlindAt_openInvocation s)

theorem outputBlindAt_absorbStep (s : State) : OutputBlindAt absorbStep s :=
  outputBlindAt_of_carries fun o => by rw [absorbStep_eq, absorbStep_eq s]; rfl

theorem outputBlindAt_padStep (s : State) : OutputBlindAt padStep s :=
  outputBlindAt_of_carries fun o => by rw [padStep_eq, padStep_eq s]; rfl

/-- The byte SQUEEZE writes at offset a of OUT, where it writes one (41_sponge.md R135). -/
def State.blockByte? (s : State) (a : Nat) : Option Byte :=
  if s.optr.toNat ≤ a ∧ a < s.optr.toNat + s.blockLen then some (s.lanes.byte (a - s.optr.toNat))
  else none

/-- OUT after SQUEEZE's copy: the block where it lies, else what OUT held. -/
theorem get?_writeBytes_block (s : State) (o : Memory) (a : Nat) :
    (o.writeBytes s.optr.toNat s.lanes.byte s.blockLen).get? a = (s.blockByte? a).or (o.get? a) := by
  rw [Memory.get?_writeBytes, State.blockByte?]
  split <;> rfl

theorem outputBlindAt_copyBlock (s : State) : OutputBlindAt copyBlock s :=
  ⟨s.blockByte?, fun o => ⟨_, rfl, get?_writeBytes_block s o⟩⟩

theorem outputBlindAt_squeezeStep (s : State) : OutputBlindAt squeezeStep s :=
  outputBlindAt_ite (fun _ => Iff.rfl)
    ((outputBlindAt_permute _).comp (outputBlindAt_copyBlock s))
    (OutputBlindAt.comp (g := fun u => { u with phase := .done })
      (outputBlindAt_of_carries fun _ => rfl) (outputBlindAt_copyBlock s))

theorem outputBlindAt_absorbLoop (n : Nat) (s : State) : OutputBlindAt (absorbLoop n) s := by
  induction n generalizing s with
  | zero => exact outputBlindAt_of_carries fun _ => rfl
  | succ n ih =>
    exact outputBlindAt_ite (fun _ => Iff.rfl) ((ih _).comp (outputBlindAt_absorbStep s))
      (outputBlindAt_of_carries (f := id) fun _ => rfl)

theorem outputBlindAt_squeezeLoop (n : Nat) (s : State) : OutputBlindAt (squeezeLoop n) s := by
  induction n generalizing s with
  | zero => exact outputBlindAt_of_carries fun _ => rfl
  | succ n ih =>
    exact outputBlindAt_ite (fun _ => Iff.rfl) ((ih _).comp (outputBlindAt_squeezeStep s))
      (outputBlindAt_of_carries (f := id) fun _ => rfl)

/-- KECCAK is the composition of steps none of which reads OUT (41_sponge.md R136). -/
theorem outputBlindAt_keccakSteps (s : State) : OutputBlindAt keccakSteps s := by
  have habsorbed :=
    (outputBlindAt_absorbLoop s.inlen.toNat _).comp (outputBlindAt_openInvocation s)
  have hpadded := (outputBlindAt_padStep _).comp habsorbed
  have hsqueezed := (outputBlindAt_squeezeLoop s.outlen.toNat _).comp hpadded
  exact outputBlindAt_of_check (fun _ _ h => by simp only [keccakSteps, h])
    (fun _ h => by simp only [keccakSteps, h]) hsqueezed

/-- Every command is a state function that does not read OUT. -/
theorem exec_outputBlind (i : Instr) :
    ∃ f : State → State, (∀ s, exec i s = .next (f s)) ∧ ∀ s, OutputBlindAt f s := by
  cases hrow : row i with
  | some w =>
    exact ⟨fun s => keccakSteps (w.load s), exec_row hrow, fun s =>
      (outputBlindAt_keccakSteps _).comp (outputBlindAt_of_carries fun _ => rfl)⟩
  | none =>
    have hseq := outputBlindAt_raiseErr .seq
    cases i <;> simp only [row, reduceCtorEq] at hrow <;> refine ⟨_, fun _ => rfl, fun s => ?_⟩
    case pinit | theta | rhopi | chi | iota =>
      exact outputBlindAt_whenClosed (outputBlindAt_of_carries fun _ => rfl)
    case round =>
      exact outputBlindAt_whenClosed (outputBlindAt_ite (fun _ => Iff.rfl)
        (outputBlindAt_of_carries fun _ => rfl) (hseq s))
    case f1600 => exact outputBlindAt_whenClosed (outputBlindAt_permute s)
    case init => exact outputBlindAt_initStep s
    case absorb => exact outputBlindAt_ite (fun _ => Iff.rfl) (outputBlindAt_absorbStep s) (hseq s)
    case pad => exact outputBlindAt_ite (fun _ => Iff.rfl) (outputBlindAt_padStep s) (hseq s)
    case squeeze => exact outputBlindAt_ite (fun _ => Iff.rfl) (outputBlindAt_squeezeStep s) (hseq s)
    case keccak => exact outputBlindAt_keccakSteps s

/-- Settles O45: IN is in the frame of every command, and no command reads OUT. -/
theorem engineDirectionOfAccess : Obligations.EngineDirectionOfAccess := by
  intro i s t hexec
  obtain ⟨f, hf, hblind⟩ := exec_outputBlind i
  obtain ⟨u, hu, -, -, -, hepoch, hin, -⟩ := exec_frame i s
  obtain rfl : t = u := Host.Outcome.next.inj (hexec.symm.trans hu)
  obtain rfl : f s = t := Host.Outcome.next.inj ((hf s).symm.trans hexec)
  obtain ⟨written, hwritten⟩ := hblind s
  refine ⟨hin, written, fun o => ?_⟩
  obtain ⟨o', hrun, hget⟩ := hwritten o
  refine ⟨{ f s with outBuf := o' }, by rw [hf, hrun], rfl, fun a => ?_⟩
  simp only [State.outByte, hget, hepoch, Option.getD_or]

/-! ## A host read changes nothing (R57) -/

/-- Settles O49: neither the refusal test nor the value read looks at the response, and the response is
all that a read, refused or not, replaces. -/
theorem readsHaveNoSideEffect : Obligations.ReadsHaveNoSideEffect := by
  intro x s hread
  suffices h : ∃ resp, ∀ before,
      perform x { s with response := before } = .next { s with response := some resp } by
    obtain ⟨resp, hresp⟩ := h
    exact ⟨resp, hresp s.response, hresp⟩
  by_cases hrefused : refuses x s = true
  · exact ⟨.refused, fun _ => if_pos hrefused⟩
  · rcases hread with ⟨width, offset, rfl⟩ | ⟨space, width, offset, rfl⟩
    · cases hreg : Csr.ofOffset offset with
      | none => simp [refuses, hreg] at hrefused
      | some reg =>
        refine ⟨.okWord (readCsr reg s), fun _ => (if_neg hrefused).trans ?_⟩
        simp only [accept, hreg]
        rfl
    · exact ⟨.okByte (readSpace space offset s), fun _ => if_neg hrefused⟩

end Sys2Proof.Machine
end

section
/-! PROOFS. Family 30_encoding.md: which words decode and to what, what an illegal word does at the
command port, and the events of LOAD IN. -/

namespace Sys2Proof.Machine

open Sys2Proof.Safety

/-! ## Decoding and encoding (R70, R73, R79) -/

theorem decode_eq_ok_iff (w : Word) (i : Instr) : decode w = .ok i ↔
    zeroField w = 0 ∧ decodeGroup (grpField w).toNat (fnField w).toNat = .ok i := by
  by_cases hzero : zeroField w = 0
  · rw [decode, if_neg (not_not.2 hzero), and_iff_right hzero]
  · rw [decode, if_pos hzero]
    exact iff_of_false nofun fun h => hzero h.1

theorem decode_encode (i : Instr) : decode (encode i) = .ok i := by
  cases i <;> rfl

/-- A word is its three fields, and those of a legal word are its command's. -/
theorem eq_encode_of_decode {w : Word} {i : Instr} (h : decode w = .ok i) : w = encode i := by
  obtain ⟨hzero, hgroup⟩ := (decode_eq_ok_iff w i).1 h
  have hfields := decodeGroup_ok hgroup
  rw [word_eq_fields w, hzero, encode, ← hfields]
  rfl

/-- Settles O1: the decoder reads back what the encoder puts together, and each field of a word it
accepts is one the encoder wrote. -/
theorem decodeIffEncode : Obligations.DecodeIffEncode := fun _ i =>
  ⟨eq_encode_of_decode, fun h => h ▸ decode_encode i⟩

/-- The rows of the opcode map are the commands with their encodings. -/
theorem mem_opcodeMap_iff (w : Word) (i : Instr) : (w, i) ∈ opcodeMap ↔ w = encode i := by
  have hrows : ∀ r ∈ opcodeMap, r.1 = encode r.2 := by decide
  refine ⟨hrows (w, i), ?_⟩
  rintro rfl
  cases i <;> decide

/-- Settles O2: both sides say that the word is the command's encoding. -/
theorem legalWordsAreTheOpcodeMap : Obligations.LegalWordsAreTheOpcodeMap := fun w i =>
  (decodeIffEncode w i).trans (mem_opcodeMap_iff w i).symm

/-- Settles O4: each word is, digit for digit, the encoding of its command. -/
theorem writtenOutWordsDecode : Obligations.WrittenOutWordsDecode :=
  ⟨decode_encode .rhopi, decode_encode .f1600, decode_encode .squeeze, decode_encode .sha3_256,
    decode_encode .shake128⟩

/-! ## Illegal words (R74) -/

/-- The enumeration of R74 is complete: the words outside it are the commands. -/
theorem exists_decode_iff (w : Word) : (∃ i, decode w = .ok i) ↔ ¬illegalWord w := by
  simp only [decode_eq_ok_iff, illegalWord, ← decodeGroup_isOk]
  cases decodeGroup (grpField w).toNat (fnField w).toNat <;> simp [Except.toBool]

/-- A WR to CMD is accepted in every phase. -/
theorem perform_wr_cmd (w : Word) (s : State) : perform (.wr 32 0x00 w) s = writeCmd w s := rfl

/-- Settles O3: the command port runs what decodes and raises ERR_CMD for the rest, which are the words
enumerated. -/
theorem illegalWordRaisesErrCmd : Obligations.IllegalWordRaisesErrCmd := by
  refine fun w => ⟨fun hillegal s => ?_, (exists_decode_iff w).2⟩
  rw [perform_wr_cmd]
  rcases writeCmd_cases w s with ⟨i, -, hdecode, -⟩ | ⟨-, -, hraised⟩
  · exact absurd hillegal ((exists_decode_iff w).1 ⟨i, hdecode⟩)
  · exact hraised

/-! ## LOAD IN (R78, R183) -/

/-- A byte write that is not refused (43_host_access.md R183). -/
theorem perform_wrb {space : Space} {offset : Nat} {s : State} (v : Byte) (hout : space ≠ .output)
    (hin : offset < spaceSize space s) (hclosed : s.isOpen = false) :
    perform (.wrb space 8 offset v) s = .next (respond .ok (writeSpace space offset v s)) := by
  simp [perform, refuses, accept, hout, hin, hclosed]

/-- A run takes the oldest event, performs it, and goes on with one step less. -/
theorem run_transaction {x : Transaction} {rest : List HostEvent} {s t : State} (k : Nat)
    (hpending : s.pending = .transaction x :: rest)
    (hperform : perform x { s with pending := rest } = .next t) :
    Host.Core.run core (k + 1) s = Host.Core.run core k t := by
  have hstep : core.step s = .next t := by
    change runNext s = _
    rw [runNext, hpending]
    exact hperform
  simp only [Host.Core.run, hstep]

/-- The WRBs of a list of bytes, with no invocation open and room for them: IN holds the bytes from the
first offset on, and beside the response and the events taken nothing else changes. -/
theorem run_writeBytesFrom_input (k : Nat) (rest : List HostEvent) (bytes : List Byte) {start : Nat}
    {s : State} (hclosed : s.isOpen = false) (hroom : start + bytes.length ≤ s.params.inBytes) :
    ∃ (m : Memory) (resp : Option Response),
      Host.Core.run core (bytes.length + k)
          { s with pending := writeBytesFrom .input start bytes ++ rest } =
        Host.Core.run core k { s with inBuf := m, pending := rest, response := resp } ∧
      ∀ a, m.get? a = if start ≤ a ∧ a < start + bytes.length
        then some (bytes.getD (a - start) 0) else s.inBuf.get? a := by
  induction bytes generalizing start s with
  | nil =>
    refine ⟨s.inBuf, s.response, by simp [writeBytesFrom], fun a => (if_neg ?_).symm⟩
    simp only [List.length_nil]
    omega
  | cons b bs ih =>
    simp only [List.length_cons] at hroom ⊢
    obtain ⟨m, resp, hrun, hget⟩ := ih (start := start + 1)
      (s := respond .ok (writeSpace .input start b s)) hclosed
      (show start + 1 + bs.length ≤ s.params.inBytes by omega)
    refine ⟨m, resp, ?_, fun a => ?_⟩
    · rw [Nat.add_right_comm]
      exact Eq.trans (run_transaction _ rfl (perform_wrb (space := .input) b (by decide)
        (show start < s.params.inBytes by omega) hclosed)) hrun
    · rw [hget, respond_inBuf, writeSpace, Memory.get?_set]
      by_cases hfirst : a = start
      · subst hfirst
        simp
      · by_cases hlater : start + 1 ≤ a ∧ a < start + 1 + bs.length
        · obtain ⟨j, rfl⟩ : ∃ j, a = start + 1 + j := ⟨a - (start + 1), by omega⟩
          rw [if_pos hlater, if_pos (by omega), Nat.add_sub_cancel_left, Nat.add_assoc,
            Nat.add_sub_cancel_left, Nat.add_comm 1, List.getD_cons_succ]
        · rw [if_neg hlater, if_neg hfirst, if_neg (by omega)]

/-- Settles O55: the WRBs place the bytes from offset 0, and the WR after them places their count. -/
theorem loadInWritesTheInput : Obligations.LoadInWritesTheInput := by
  intro s bytes hclosed hroom _
  obtain ⟨m, resp, hrun, hget⟩ := run_writeBytesFrom_input 1
    [writeReg .inlen (BitVec.ofNat 32 bytes.length)] bytes (start := 0) hclosed
    ((Nat.zero_add _).trans_le hroom)
  refine ⟨_, hrun.trans (run_transaction 0 rfl (perform_wr_param (reg := .inlen) _ rfl hclosed)), rfl,
    fun a => ?_⟩
  have hbyte := hget a
  simp only [Nat.zero_le, true_and, Nat.zero_add, Nat.sub_zero] at hbyte
  change (m.get? a).getD (Config.freeInByte s.epoch a) = _
  rw [hbyte]
  split <;> rfl

end Sys2Proof.Machine
end

section
/-! PROOFS. Family 40_permutation.md: what each permutation command does when no invocation is open, that
none does anything but raise ERR_SEQ when one is, and that R is never zero. -/

namespace Sys2Proof.Machine

open Sys2Proof.Safety

/-! ## The commands, by their enabling condition (R100) -/

/-- With an invocation open a permutation command raises ERR_SEQ (40_permutation.md R100). -/
theorem exec_permutation_open {i : Instr} {s : State} (hperm : isPermutation i = true)
    (hopen : s.isOpen = true) : exec i s = .next (raiseErr .seq s) := by
  cases i
  case pinit | theta | rhopi | chi | iota | round | f1600 =>
    exact congrArg Host.Outcome.next (whenClosed_open _ hopen)
  all_goals cases hperm

section
variable {s : State} (hclosed : s.isOpen = false)
include hclosed

theorem exec_pinit_closed : exec .pinit s = .next (pinitStep s) :=
  congrArg Host.Outcome.next (whenClosed_closed _ hclosed)

theorem exec_theta_closed : exec .theta s = .next (thetaStep s) :=
  congrArg Host.Outcome.next (whenClosed_closed _ hclosed)

theorem exec_rhopi_closed : exec .rhopi s = .next (rhoPiStep s) :=
  congrArg Host.Outcome.next (whenClosed_closed _ hclosed)

theorem exec_chi_closed : exec .chi s = .next (chiStep s) :=
  congrArg Host.Outcome.next (whenClosed_closed _ hclosed)

theorem exec_iota_closed : exec .iota s = .next (iotaStep s) :=
  congrArg Host.Outcome.next (whenClosed_closed _ hclosed)

/-- ROUND has a second enabling condition (40_permutation.md R109). -/
theorem exec_round_closed :
    exec .round s = .next (if s.rnd < 24 then roundStep s else raiseErr .seq s) :=
  congrArg Host.Outcome.next (whenClosed_closed _ hclosed)

theorem exec_round_of_lt (hrnd : s.rnd.toNat < 24) : exec .round s = .next (roundStep s) := by
  rw [exec_round_closed hclosed, if_pos (by bv_omega)]

theorem exec_f1600_closed : exec .f1600 s = .next (permute s) :=
  congrArg Host.Outcome.next (whenClosed_closed _ hclosed)

end

theorem exec_round_last {s : State} (hrnd : s.rnd = 24) : exec .round s = .next (raiseErr .seq s) := by
  cases hopen : s.isOpen with
  | true => exact exec_permutation_open rfl hopen
  | false => rw [exec_round_closed hopen, hrnd, if_neg (by decide)]

/-- Settles O20: PINIT's step, or the enabling condition of the group. -/
theorem pinitResult : Obligations.PinitResult :=
  ⟨decode_encode .pinit, fun _ => ⟨exec_pinit_closed, exec_permutation_open rfl⟩⟩

/-- The states in which the group is enabled (41_sponge.md R139). -/
theorem isOpen_eq_false_of_phase {s : State}
    (hphase : s.phase = .idle ∨ s.phase = .done ∨ s.phase = .error) : s.isOpen = false := by
  rcases hphase with h | h | h <;> simp [State.isOpen, h]

/-- Settles O28: each command's step is an update of S, R and RND. -/
theorem permutationCommandsKeepTheRest : Obligations.PermutationCommandsKeepTheRest := by
  intro i s hperm
  refine ⟨fun hopen => exec_permutation_open hperm ((isOpen_iff s).2 hopen), fun hphase hrnd => ?_⟩
  have hclosed := isOpen_eq_false_of_phase hphase
  cases i
  case pinit => exact ⟨_, exec_pinit_closed hclosed, rfl⟩
  case theta => exact ⟨_, exec_theta_closed hclosed, rfl⟩
  case rhopi => exact ⟨_, exec_rhopi_closed hclosed, rfl⟩
  case chi => exact ⟨_, exec_chi_closed hclosed, rfl⟩
  case iota => exact ⟨_, exec_iota_closed hclosed, rfl⟩
  case round => exact ⟨_, exec_round_of_lt hclosed (hrnd.resolve_right (· rfl)), rfl⟩
  case f1600 => exact ⟨_, exec_f1600_closed hclosed, by rw [permute_eq]⟩
  all_goals cases hperm

/-! ## THETA, RHOPI and CHI (R101 to R104) -/

/-- Settles O21: the new lanes are theta's, with C of the old ones. -/
theorem thetaResult : Obligations.ThetaResult := by
  refine ⟨decode_encode .theta, fun s => ⟨fun hclosed => ?_, exec_permutation_open rfl⟩⟩
  refine ⟨theta s.lanes, exec_theta_closed hclosed, fun x y => ?_⟩
  rw [lane_theta, rotl64_eq, thetaC, Five.get_ofFn, Five.get_ofFn]

/-- Settles O22: the walk's two-table form, and ROTL64 as a rotation. -/
theorem rhopiResult : Obligations.RhopiResult := by
  refine ⟨decode_encode .rhopi, fun s => ⟨fun hclosed => ?_, exec_permutation_open rfl⟩⟩
  refine ⟨rhoPi s.lanes, exec_rhopi_closed hclosed, fun x y => ?_⟩
  rw [lane_rhoPi, rotl64_eq]

/-- Settles O23: chi's lane equation, read at bit b. -/
theorem chiResult : Obligations.ChiResult := by
  refine ⟨decode_encode .chi, fun s => ⟨fun hclosed => ?_, exec_permutation_open rfl⟩⟩
  refine ⟨chi s.lanes, exec_chi_closed hclosed, fun x y b hb => ?_⟩
  rw [lane_chi, BitVec.getLsbD_xor, BitVec.getLsbD_and, BitVec.getLsbD_not, decide_eq_true hb,
    Bool.true_and]

/-! ## IOTA (R105 to R107) -/

/-- Iteration i of iota's loop, counted from index j on, flips bit b (40_permutation.md R105). -/
def iotaFlipsFrom (j r b i : Nat) : Bool := b == 2 ^ (j + i) - 1 && (lfsrAfter (i + 1) r).testBit 1

theorem iotaFlips_eq (r b : Nat) : iotaFlips r b = (List.range 7).any (iotaFlipsFrom 0 r b) := by
  unfold iotaFlips
  congr 1
  funext j
  rw [iotaFlipsFrom, Nat.zero_add]

theorem iotaFlipsFrom_succ (j r b i : Nat) :
    iotaFlipsFrom j r b (i + 1) = iotaFlipsFrom (j + 1) (lfsrNat r) b i := by
  rw [iotaFlipsFrom, iotaFlipsFrom, lfsrAfter, Nat.add_right_comm j 1 i, Nat.add_assoc j i 1]

/-- The bits that later iterations name lie above the one that iteration j names. -/
theorem iotaFlipsFrom_succ_eq_false (j r i : Nat) : iotaFlipsFrom (j + 1) r (2 ^ j - 1) i = false := by
  have hlt : 2 ^ j < 2 ^ (j + 1 + i) := Nat.pow_lt_pow_right (by decide) (by omega)
  have hpos : 0 < 2 ^ j := Nat.two_pow_pos j
  have hne : 2 ^ j - 1 ≠ 2 ^ (j + 1 + i) - 1 := by omega
  simp [iotaFlipsFrom, hne]

/-- One iteration of iota's loop, read at bit b. -/
theorem getLsbD_iotaLoop_body (j : Nat) (r : Byte) (v : Lane) {b : Nat} (hb : b < 64) :
    (if (lfsr r).getLsbD 1 then v ^^^ ((1 : Lane) <<< ((1 <<< j) - 1)) else v).getLsbD b =
      (v.getLsbD b ^^ iotaFlipsFrom j r.toNat b 0) := by
  have hbit : (lfsr r).getLsbD 1 = (lfsrAfter 1 r.toNat).testBit 1 := by
    rw [BitVec.getLsbD, toNat_lfsr]; rfl
  have hone : ((1 : Lane) <<< (2 ^ j - 1)).getLsbD b = (b == 2 ^ j - 1) := by
    change (BitVec.twoPow 64 (2 ^ j - 1)).getLsbD b = _
    rw [BitVec.getLsbD_twoPow, Bool.eq_iff_iff, Bool.and_eq_true, decide_eq_true_eq,
      decide_eq_true_eq, beq_iff_eq]
    omega
  rw [hbit, Nat.one_shiftLeft, iotaFlipsFrom, Nat.add_zero, Nat.zero_add]
  cases (lfsrAfter 1 r.toNat).testBit 1 with
  | false => simp
  | true => simp only [if_true, BitVec.getLsbD_xor, hone, Bool.and_true]

/-- What iota's loop does to a bit: each bit is named by one iteration at most, so the flips do not
cancel. -/
theorem getLsbD_iotaLoop (n j : Nat) (r : Byte) (v : Lane) {b : Nat} (hb : b < 64) :
    (iotaLoop n j r v).2.getLsbD b =
      (v.getLsbD b ^^ (List.range n).any (iotaFlipsFrom j r.toNat b)) := by
  induction n generalizing j r v with
  | zero => simp [iotaLoop]
  | succ n ih =>
    have hlater : (List.range n).any (iotaFlipsFrom j r.toNat b ∘ Nat.succ) =
        (List.range n).any (iotaFlipsFrom (j + 1) (lfsr r).toNat b) := by
      congr 1
      funext i
      rw [toNat_lfsr]
      exact iotaFlipsFrom_succ j r.toNat b i
    rw [iotaLoop, ih, getLsbD_iotaLoop_body j r v hb, List.range_succ_eq_map, List.any_cons,
      List.any_map, hlater, Bool.xor_assoc]
    congr 1
    by_cases hbit : b = 2 ^ j - 1
    · have hnone : (List.range n).any (iotaFlipsFrom (j + 1) (lfsr r).toNat b) = false := by
        simp [hbit, iotaFlipsFrom_succ_eq_false]
      rw [hnone, Bool.xor_false, Bool.or_false]
    · have hnot : iotaFlipsFrom j r.toNat b 0 = false := by simp [iotaFlipsFrom, hbit]
      rw [hnot, Bool.false_xor, Bool.false_or]

/-- R after IOTA, by the number form of the update. -/
theorem iota_snd_eq_ofNat (L : Lanes) (r : Byte) :
    (iota L r).2 = BitVec.ofNat 8 (lfsrAfter 7 r.toNat) := by
  rw [iota_snd, ← toNat_lfsrIter, BitVec.ofNat_toNat, BitVec.setWidth_eq]

/-- Settles O24: R by seven updates, lane(0,0) by the bits iota's loop flips, no other lane. -/
theorem iotaResult : Obligations.IotaResult := by
  refine ⟨decode_encode .iota, fun s => ⟨fun hclosed => ?_, exec_permutation_open rfl⟩⟩
  refine ⟨(iota s.lanes s.r).1, ?_, fun x y hxy => ?_, fun b hb => ?_⟩
  · rw [exec_iota_closed hclosed, iotaStep_eq, iota_snd_eq_ofNat]
  · rw [lane_iota, if_neg hxy]
  · rw [lane_iota, if_pos ⟨rfl, rfl⟩, ← iotaLoop_snd, getLsbD_iotaLoop 7 0 s.r _ hb, iotaFlips_eq]

/-- The table of R107: from R before round n, iota's loop gives R after it and RC[n]. -/
theorem iotaLoop_roundR : ∀ n < 24, iotaLoop 7 0 (roundR.getD n 0) 0 =
    (roundR.getD (n + 1) 0, roundConstants.getD n 0) := by
  decide

theorem iota_roundR (L : Lanes) {n : Nat} (hn : n < 24) : iota L (roundR.getD n 0) =
    (L.setLane 0 0 (L.lane 0 0 ^^^ roundConstants.getD n 0), roundR.getD (n + 1) 0) := by
  have hr : (iota L (roundR.getD n 0)).2 = roundR.getD (n + 1) 0 := by
    rw [iota_snd, ← iotaLoop_fst 7 0 _ 0, iotaLoop_roundR n hn]
  refine Prod.ext ?_ hr
  rw [iota, iotaLoop_snd, iotaLoop_roundR n hn]

/-- Settles O25: IOTA's step at an R of the table. -/
theorem iotaRoundConstants : Obligations.IotaRoundConstants := by
  intro s n hn hclosed hr
  rw [exec_iota_closed hclosed, iotaStep_eq, hr, iota_roundR s.lanes hn]

/-! ## ROUND and F1600 (R109, R110, R114) -/

theorem execSeq_cons {i : Instr} {s t : State} (is : List Instr) (hexec : exec i s = .next t) :
    execSeq (i :: is) s = execSeq is t := by
  simp only [execSeq, hexec]

/-- The four step commands in order; each leaves the next one enabled. -/
theorem execSeq_roundSteps {s : State} (hclosed : s.isOpen = false) :
    execSeq [.theta, .rhopi, .chi, .iota] s =
      .next (iotaStep (chiStep (rhoPiStep (thetaStep s)))) :=
  calc execSeq [.theta, .rhopi, .chi, .iota] s
    _ = execSeq [.rhopi, .chi, .iota] (thetaStep s) := execSeq_cons _ (exec_theta_closed hclosed)
    _ = execSeq [.chi, .iota] (rhoPiStep (thetaStep s)) := execSeq_cons _ (exec_rhopi_closed hclosed)
    _ = execSeq [.iota] (chiStep (rhoPiStep (thetaStep s))) := execSeq_cons _ (exec_chi_closed hclosed)
    _ = .next (iotaStep (chiStep (rhoPiStep (thetaStep s)))) :=
      execSeq_cons _ (exec_iota_closed hclosed)

/-- Settles O26: ROUND's step is the four others' with RND advanced. -/
theorem roundResult : Obligations.RoundResult := by
  refine ⟨decode_encode .round, fun s => ⟨fun hclosed hrnd => ?_, ?_⟩⟩
  · exact ⟨_, execSeq_roundSteps hclosed, exec_round_of_lt hclosed hrnd, rfl⟩
  · rintro (hopen | hlast)
    · exact exec_permutation_open rfl hopen
    · exact exec_round_last hlast

/-- ROUND issued n times, RND ending at 24 or below: each leaves the next one enabled. -/
theorem execSeq_replicate_round (n : Nat) {s : State} (hclosed : s.isOpen = false)
    (hrnd : s.rnd.toNat + n ≤ 24) :
    execSeq (List.replicate n .round) s = .next (roundSteps n s) := by
  induction n generalizing s with
  | zero => rfl
  | succ n ih =>
    have hnext : (roundStep s).rnd.toNat = s.rnd.toNat + 1 := by
      rw [roundStep_eq]
      bv_omega
    rw [List.replicate_succ, execSeq_cons _ (exec_round_of_lt hclosed (by omega)), roundSteps]
    exact ih hclosed (by omega)

/-- Settles O27: PERMUTE is PINIT's step and 24 rounds, of which R and RND do not depend on S. -/
theorem f1600IsTwentyFourRounds : Obligations.F1600IsTwentyFourRounds := by
  refine ⟨decode_encode .f1600, fun s => ⟨fun hclosed => ?_, exec_permutation_open rfl⟩⟩
  refine ⟨keccakF s.lanes, ?_⟩
  rw [← permute_eq s]
  have hrounds : execSeq (List.replicate 24 .round) (pinitStep s) = .next (permute s) :=
    execSeq_replicate_round 24 (s := pinitStep s) hclosed (Nat.le_refl 24)
  exact ⟨exec_f1600_closed hclosed, (execSeq_cons _ (exec_pinit_closed hclosed)).trans hrounds⟩

/-! ## R is never zero (R106) -/

/-- The values a command can give R when it holds r: the same, PINIT's, PERMUTE's last one, or the one
after IOTA's seven updates. -/
def LfsrNext (r r' : Byte) : Prop := r' = r ∨ r' = 0x01 ∨ r' = 0x8E ∨ r' = lfsrIter 7 r

theorem LfsrNext.same (r : Byte) : LfsrNext r r := .inl rfl

theorem LfsrNext.permuted (r : Byte) : LfsrNext r 0x8E := .inr (.inr (.inl rfl))

theorem LfsrNext.ne_zero {r r' : Byte} (h : LfsrNext r r') (hr : r ≠ 0) : r' ≠ 0 := by
  rcases h with rfl | rfl | rfl | rfl
  · exact hr
  · decide
  · decide
  · exact lfsrIter_ne_zero 7 hr

/-- A command that is not enabled leaves R (60_exceptions.md R203). -/
theorem lfsrNext_ite_raiseErr {c : Prop} [Decidable c] {s t : State} (ht : c → LfsrNext s.r t.r) :
    LfsrNext s.r (if c then t else raiseErr .seq s).r := by
  split
  next hc => exact ht hc
  next => exact .same _

theorem lfsrNext_whenClosed {f : State → State} {s : State} (hf : LfsrNext s.r (f s).r) :
    LfsrNext s.r (whenClosed f s).r := by
  unfold whenClosed
  split
  · exact .same _
  · exact hf

theorem lfsrNext_keccakSteps (s : State) : LfsrNext s.r (keccakSteps s).r := by
  rcases keccakSteps_frame s with ⟨c, -, hfail⟩ | ⟨-, hdone⟩
  · rw [hfail]
    exact .same _
  · rw [hdone]
    exact .permuted _

/-- Everything a command can do to R. -/
theorem exec_lfsrNext {i : Instr} {s t : State} (hexec : exec i s = .next t) : LfsrNext s.r t.r := by
  cases hrow : row i with
  | some w =>
    obtain rfl := Host.Outcome.next.inj ((exec_row hrow s).symm.trans hexec)
    exact lfsrNext_keccakSteps (w.load s)
  | none =>
    cases i <;> simp only [row, reduceCtorEq] at hrow <;> obtain rfl := Host.Outcome.next.inj hexec
    case pinit => exact lfsrNext_whenClosed (.inr (.inl rfl))
    case theta | rhopi | chi => exact lfsrNext_whenClosed (.same _)
    case iota => exact lfsrNext_whenClosed (.inr (.inr (.inr (iota_snd s.lanes s.r))))
    case round =>
      exact lfsrNext_whenClosed (lfsrNext_ite_raiseErr fun _ =>
        .inr (.inr (.inr (keccakRound_snd s.lanes s.r))))
    case f1600 =>
      refine lfsrNext_whenClosed ?_
      rw [permute_r]
      exact .permuted _
    case init =>
      unfold initStep
      split <;> exact .same _
    case absorb =>
      refine lfsrNext_ite_raiseErr fun _ => ?_
      rw [absorbStep_eq]
      dsimp only
      split
      next => exact .permuted _
      next => exact .same _
    case pad =>
      refine lfsrNext_ite_raiseErr fun _ => ?_
      rw [padStep_eq]
      exact .permuted _
    case squeeze =>
      refine lfsrNext_ite_raiseErr fun _ => ?_
      rw [squeezeStep_eq]
      split
      next => exact .permuted _
      next => exact .same _
    case keccak => exact lfsrNext_keccakSteps s

/-- No transaction but a command touches R. -/
theorem perform_lfsrNext {x : Transaction} {s t : State} (hperform : perform x s = .next t) :
    LfsrNext s.r t.r := by
  obtain ⟨resp, u, hresult, -, hcases⟩ := perform_cases x s
  obtain rfl := Host.Outcome.next.inj (hresult.symm.trans hperform)
  rw [respond_r]
  rcases hcases with rfl | ⟨w, i, -, -, he⟩ | ⟨w, e, -, -, rfl⟩ | ⟨reg, v, -, -, -, rfl⟩ |
    ⟨space, offset, v, -, -, -, -, rfl⟩
  · exact .same _
  · exact exec_lfsrNext he
  · exact .same _
  · rw [writeCsr_frame]
    exact .same _
  · cases space <;> exact .same _

/-- Settles O15: a RESET event sets R to 0x01, and every value a command gives R is nonzero if R was. -/
theorem lfsrRegisterNeverZero : Obligations.LfsrRegisterNeverZero := by
  have hreset : ∀ p : Config.Params, (State.resetWith p).r ≠ 0 := fun _ => show (0x01 : Byte) ≠ 0 by decide
  refine ⟨hreset, fun s t hr hstep => ?_⟩
  rcases step_cases s with ⟨-, hs⟩ | ⟨rest, -, hs⟩ | ⟨x, rest, -, hs⟩
  · obtain rfl := Host.Outcome.next.inj (hs.symm.trans hstep)
    exact hr
  · obtain rfl := Host.Outcome.next.inj (hs.symm.trans hstep)
    exact hreset s.params
  · exact (perform_lfsrNext (hs.symm.trans hstep)).ne_zero hr

end Sys2Proof.Machine
end

section
/-! PROOFS. Family 41_sponge.md: the parameter check, the five sponge commands, KECCAK as the sponge
function and as the sequence of the other four, its permutations counted, and the phase machine. -/

namespace Sys2Proof.Machine

open Sys2Proof.Safety

/-! ## Commands that are not enabled (R139, R202) -/

/-- The permutation commands need a closed invocation, ROUND an RND below 24 too. -/
theorem enabled_iff_of_isPermutation {i : Instr} (hperm : isPermutation i = true) (s : State) :
    enabled i s ↔ s.isOpen = false ∧ (i = .round → s.rnd.toNat < 24) := by
  have hclosed : s.isOpen = false ↔ s.phase ≠ .absorb ∧ s.phase ≠ .squeeze := by
    rw [← Bool.not_eq_true, isOpen_iff, not_or]
  cases i
  case pinit | theta | rhopi | chi | iota | f1600 => simp [enabled, hclosed]
  case round => simp [enabled, hclosed, and_assoc]
  all_goals cases hperm

/-- A command whose enabling condition fails raises ERR_SEQ (60_exceptions.md R202). -/
theorem exec_of_not_enabled {i : Instr} {s : State} (hnot : ¬enabled i s) :
    exec i s = .next (raiseErr .seq s) := by
  by_cases hperm : isPermutation i = true
  · rw [enabled_iff_of_isPermutation hperm] at hnot
    cases hopen : s.isOpen with
    | true => exact exec_permutation_open hperm hopen
    | false =>
      obtain ⟨rfl, hlast⟩ : i = .round ∧ 24 ≤ s.rnd.toNat := by simpa [hopen] using hnot
      rw [exec_round_closed hopen, if_neg (by bv_omega)]
  · cases i
    case absorb | pad | squeeze => exact congrArg Host.Outcome.next (if_neg hnot)
    case pinit | theta | rhopi | chi | iota | round | f1600 => exact absurd rfl hperm
    all_goals exact absurd trivial hnot

theorem exec_absorb_enabled {s : State} (henabled : enabled .absorb s) :
    exec .absorb s = .next (absorbStep s) :=
  congrArg Host.Outcome.next (if_pos henabled)

theorem exec_pad_enabled {s : State} (henabled : enabled .pad s) : exec .pad s = .next (padStep s) :=
  congrArg Host.Outcome.next (if_pos henabled)

theorem exec_squeeze_enabled {s : State} (henabled : enabled .squeeze s) :
    exec .squeeze s = .next (squeezeStep s) :=
  congrArg Host.Outcome.next (if_pos henabled)

/-! ## The commands that check the parameters (R131, R132) -/

theorem exec_init (s : State) : exec .init s = .next (initStep s) := rfl

/-- KECCAK and the wrappers: the KECCAK steps on the state with the command's row loaded. -/
theorem exec_eq_keccakSteps {i : Instr} (hstarts : startsInvocation i = true) (hinit : i ≠ .init)
    (s : State) : exec i s = .next (keccakSteps (loaded i s)) := by
  cases i
  case init => exact absurd rfl hinit
  case keccak | sha3_224 | sha3_256 | sha3_384 | sha3_512 | shake128 | shake256 => rfl
  all_goals cases hstarts

section
variable {s : State}

theorem initStep_of_error {c : ErrCode} (hcheck : checkParams s = some c) :
    initStep s = raiseErr c s := by
  simp only [initStep, hcheck]

theorem initStep_of_legal (hlegal : LegalParams s) : initStep s = openInvocation s := by
  simp only [initStep, checkParams_none.2 hlegal]

theorem keccakSteps_of_error {c : ErrCode} (hcheck : checkParams s = some c) :
    keccakSteps s = raiseErr c s := by
  simp only [keccakSteps, hcheck]

/-- Parameters that are not legal raise one of the three errors. -/
theorem exists_checkParams_of_not_legal (hillegal : ¬LegalParams s) : ∃ c, checkParams s = some c :=
  Option.ne_none_iff_exists'.1 (mt checkParams_none.1 hillegal)

/-- The legal rates, as multiples of 8 (41_sponge.md R131). -/
theorem legalParams_iff : LegalParams s ↔
    s.outlen.toNat ≤ s.params.outBytes ∧ s.inlen.toNat ≤ s.params.inBytes ∧
    ∃ k : Nat, 1 ≤ k ∧ k ≤ 200 ∧ s.rate.toNat = 8 * k ∧ s.cap.toNat = 1600 - 8 * k := by
  constructor
  · rintro ⟨hout, hsum, hmod, hpos, hin⟩
    exact ⟨hout, hin, s.rate.toNat / 8, by omega⟩
  · rintro ⟨hout, hin, k, hk, hk', hrate, hcap⟩
    exact ⟨hout, by omega, by omega, by omega, hin⟩

end

/-- Settles O29: the check's two verdicts, and that a command which starts an invocation raises it. -/
theorem checkParamsDecides : Obligations.CheckParamsDecides := by
  refine fun s => ⟨checkParams_none.trans legalParams_iff, checkParams_eq_some s, ?_⟩
  intro i c hstarts hcheck
  by_cases hinit : i = .init
  · subst hinit
    exact congrArg Host.Outcome.next (initStep_of_error hcheck)
  · rw [exec_eq_keccakSteps hstarts hinit, keccakSteps_of_error hcheck]
    rfl

/-- Settles O30: a passed check opens an invocation with S all zero, a failed one raises its error. -/
theorem initResult : Obligations.InitResult := by
  refine ⟨decode_encode .init, fun s => ⟨fun hlegal => ?_, fun c hraises => ?_⟩⟩
  · refine ⟨Lanes.zero, fun i _ => Lanes.byte_zero i, ?_⟩
    rw [exec_init, initStep_of_legal hlegal]
    rfl
  · exact congrArg Host.Outcome.next (initStep_of_error ((checkParams_eq_some s c).2 hraises))

/-! ## ABSORB, PAD and SQUEEZE (R133 to R135) -/

/-- A register advanced by n holds its old number plus n. -/
theorem add_ofNat_eq_ofNat (p : Word) (n : Nat) :
    p + BitVec.ofNat 32 n = BitVec.ofNat 32 (p.toNat + n) := by
  rw [BitVec.ofNat_add, BitVec.ofNat_toNat, BitVec.setWidth_eq]

/-- Settles O31: S takes the chunk by a block xor, and a full chunk is permuted. -/
theorem absorbResult : Obligations.AbsorbResult := by
  refine ⟨decode_encode .absorb, fun s =>
    ⟨fun hphase hmore => ?_, exec_of_not_enabled (i := .absorb)⟩⟩
  have hexec := exec_absorb_enabled (s := s) ⟨hphase, hmore⟩
  rw [absorbStep_eq, add_ofNat_eq_ofNat] at hexec
  refine ⟨s.lanes.xorBytes s.chunkByte s.chunkLen, fun i hi => ?_, fun hfull => ?_,
    fun hpartial => ?_⟩
  · simp only [Lanes.byte_xorBytes, hi, and_true]
    rfl
  · simp only [if_pos (show s.chunkLen = s.rB from hfull)] at hexec
    exact hexec
  · simp only [if_neg (show ¬s.chunkLen = s.rB from hpartial)] at hexec
    exact hexec

/-- A byte xor of S, read at an offset S has. -/
theorem Lanes.byte_xorByte_of_lt (L : Lanes) (i : Nat) (b : Byte) {j : Nat} (hj : j < 200) :
    (L.xorByte i b).byte j = if j = i then L.byte j ^^^ b else L.byte j := by
  rw [Lanes.byte_xorByte]
  by_cases h : j = i
  · rw [if_pos h, if_pos ⟨h, h ▸ hj⟩, h]
  · rw [if_neg h, if_neg fun hji => h hji.1]

/-- Settles O32: the two byte xors around the conditional permutation. -/
theorem padResult : Obligations.PadResult := by
  refine ⟨decode_encode .pad, fun s => ⟨fun hphase hall _ => ?_, exec_of_not_enabled (i := .pad)⟩⟩
  refine ⟨_, _, _, fun i hi => Lanes.byte_xorByte_of_lt _ _ _ hi, rfl,
    fun i hi => Lanes.byte_xorByte_of_lt _ _ _ hi, ?_⟩
  rw [exec_pad_enabled ⟨hphase, hall⟩, padStep_eq]
  rfl

/-- Settles O33: the block copied to OUT, and the two ways SQUEEZE goes on. -/
theorem squeezeResult : Obligations.SqueezeResult := by
  refine ⟨decode_encode .squeeze, fun s => ⟨fun hphase => ?_, exec_of_not_enabled (i := .squeeze)⟩⟩
  refine ⟨squeezeStep s, exec_squeeze_enabled hphase, fun a => ?_, squeezeStep_optr s,
    fun hmore => ?_, fun hlast => ?_⟩
  · exact (squeezeStep_outByte s a).trans (copyBlock_outByte s a)
  · rw [squeezeStep_optr] at hmore
    rw [squeezeStep_eq, if_pos hmore]
    rfl
  · rw [squeezeStep_optr] at hlast
    rw [squeezeStep_eq, if_neg hlast]
    rfl

/-! ## KECCAK computes the sponge function (R130, R140) -/

/-- The KECCAK steps with legal parameters: everything but S and the contents of OUT. -/
theorem keccakSteps_of_legal {s : State} (hlegal : LegalParams s) : keccakSteps s =
    { s with
      lanes := (keccakSteps s).lanes
      r := 0x8E
      rnd := 24
      blk := BitVec.ofNat 8 (s.inlen.toNat % s.rB)
      iptr := s.inlen
      optr := s.outlen
      phase := .done
      errcode := .none
      outBuf := (keccakSteps s).outBuf } := by
  have hcheck := checkParams_none.2 hlegal
  have hblk : (keccakSteps s).blk = BitVec.ofNat 8 (s.inlen.toNat % s.rB) := by
    rw [← (keccakSteps_spec hcheck).1, BitVec.ofNat_toNat, BitVec.setWidth_eq]
  rcases keccakSteps_frame s with ⟨c, herror, -⟩ | ⟨-, hframe⟩
  · exact absurd (hcheck.symm.trans herror) nofun
  · rwa [hblk] at hframe

theorem keccakSteps_phase (s : State) :
    (keccakSteps s).phase = if LegalParams s then .done else .error := by
  by_cases hlegal : LegalParams s
  · rw [if_pos hlegal, keccakSteps_of_legal hlegal]
  · obtain ⟨c, hcheck⟩ := exists_checkParams_of_not_legal hlegal
    rw [if_neg hlegal, keccakSteps_of_error hcheck, raiseErr_phase]

/-- Settles O34: the frame and the outputs of the KECCAK steps, and the length of the sponge's output. -/
theorem keccakComputesSponge : Obligations.KeccakComputesSponge := by
  refine ⟨decode_encode .keccak, fun s hlegal => ?_⟩
  have hcheck := checkParams_none.2 hlegal
  obtain ⟨-, -, hmod, hpos, -⟩ := id hlegal
  exact ⟨keccakSteps s, rfl, keccakSteps_of_legal hlegal, sponge_length _ _ _ _ _ (by omega),
    (keccakSteps_spec hcheck).2⟩

/-! ## KECCAK's loops, counted in blocks -/

/-- The blocks of rB bytes that n bytes fill, the last one perhaps in part (41_sponge.md R141). -/
def blockCount (rB n : Nat) : Nat := (n + rB - 1) / rB

theorem blockCount_zero {rB : Nat} (hB : 1 ≤ rB) : blockCount rB 0 = 0 :=
  Nat.div_eq_of_lt (by omega)

/-- Taking one block off the front leaves one block fewer. -/
theorem blockCount_of_pos {rB n : Nat} (hB : 1 ≤ rB) (hn : 0 < n) :
    blockCount rB n = blockCount rB (n - min n rB) + 1 := by
  rcases Nat.le_total n rB with hle | hle
  · rw [Nat.min_eq_left hle, Nat.sub_self, blockCount_zero hB]
    exact Nat.div_eq_of_lt_le (by omega) (by omega)
  · rw [Nat.min_eq_right hle, blockCount, blockCount, ← Nat.add_div_right _ hB]
    congr 1
    omega

/-- KECCAK's state once its input is absorbed, before PAD (41_sponge.md R136). -/
def inputAbsorbed (s : State) : State := absorbLoop s.inlen.toNat (openInvocation s)

/-- What absorbing leaves as INIT set it. -/
theorem inputAbsorbed_frame (s : State) : inputAbsorbed s =
    { openInvocation s with
      lanes := (inputAbsorbed s).lanes
      r := (inputAbsorbed s).r
      rnd := (inputAbsorbed s).rnd
      iptr := (inputAbsorbed s).iptr
      blk := (inputAbsorbed s).blk } :=
  absorbLoop_frame _ _

@[simp] theorem inputAbsorbed_phase (s : State) : (inputAbsorbed s).phase = .absorb := by
  rw [inputAbsorbed_frame]; rfl
@[simp] theorem inputAbsorbed_inlen (s : State) : (inputAbsorbed s).inlen = s.inlen := by
  rw [inputAbsorbed_frame]; rfl
@[simp] theorem inputAbsorbed_outlen (s : State) : (inputAbsorbed s).outlen = s.outlen := by
  rw [inputAbsorbed_frame]; rfl
@[simp] theorem inputAbsorbed_optr (s : State) : (inputAbsorbed s).optr = 0 := by
  rw [inputAbsorbed_frame]; rfl
@[simp] theorem inputAbsorbed_sfx (s : State) : (inputAbsorbed s).sfx = s.sfx := by
  rw [inputAbsorbed_frame]; rfl
@[simp] theorem inputAbsorbed_rB (s : State) : (inputAbsorbed s).rB = s.rB := by
  rw [inputAbsorbed_frame]; rfl

section
variable {s : State} (hlegal : LegalParams s)
include hlegal

theorem rB_of_legal : 1 ≤ s.rB ∧ s.rB ≤ 200 := rB_of_checkParams (checkParams_none.2 hlegal)

theorem inputAbsorbed_iptr : (inputAbsorbed s).iptr = s.inlen :=
  absorbLoop_iptr _ (openInvocation s) (rB_of_legal hlegal).1 (Nat.zero_le _) (Nat.sub_le _ _)

/-- BLK before PAD is the length of the last chunk, 0 if that was a full one. -/
theorem inputAbsorbed_blk : (inputAbsorbed s).blk.toNat = s.inlen.toNat % s.rB :=
  (absorbLoop_spec s.inlen.toNat 0 (openInvocation s) (rB_of_legal hlegal).1 (rB_of_legal hlegal).2
    (Nat.zero_le _) (Nat.sub_le _ _) (by simp) rfl rfl).2

/-- The KECCAK steps with legal parameters, as INIT, the absorb loop, PAD and the squeeze loop. -/
theorem keccakSteps_eq_loops :
    keccakSteps s = squeezeLoop s.outlen.toNat (padStep (inputAbsorbed s)) := by
  simp only [keccakSteps, checkParams_none.2 hlegal, inputAbsorbed]

end

@[simp] theorem absorbStep_phase (s : State) : (absorbStep s).phase = s.phase := by
  rw [absorbStep_frame]
@[simp] theorem absorbStep_inlen (s : State) : (absorbStep s).inlen = s.inlen := by
  rw [absorbStep_frame]
@[simp] theorem absorbStep_rB (s : State) : (absorbStep s).rB = s.rB := by
  rw [absorbStep_frame]; rfl
@[simp] theorem squeezeStep_outlen (s : State) : (squeezeStep s).outlen = s.outlen := by
  rw [squeezeStep_frame]
@[simp] theorem squeezeStep_rB (s : State) : (squeezeStep s).rB = s.rB := by
  rw [squeezeStep_frame]; rfl
@[simp] theorem padStep_optr (s : State) : (padStep s).optr = s.optr := by rw [padStep_eq]
@[simp] theorem padStep_outlen (s : State) : (padStep s).outlen = s.outlen := by rw [padStep_eq]
@[simp] theorem padStep_rB (s : State) : (padStep s).rB = s.rB := by rw [padStep_eq]; rfl

theorem padStep_phase (s : State) :
    (padStep s).phase = if 0 < s.outlen.toNat then .squeeze else .done := by rw [padStep_eq]

/-- The input that remains after one chunk. -/
theorem absorbStep_remaining (s : State) :
    (absorbStep s).inlen.toNat - (absorbStep s).iptr.toNat =
      s.inlen.toNat - s.iptr.toNat - min (s.inlen.toNat - s.iptr.toNat) s.rB := by
  rw [absorbStep_inlen, absorbStep_iptr, State.chunkLen, Nat.sub_add_eq]

/-- The output that remains after one block. -/
theorem squeezeStep_remaining (s : State) :
    (squeezeStep s).outlen.toNat - (squeezeStep s).optr.toNat =
      s.outlen.toNat - s.optr.toNat - min (s.outlen.toNat - s.optr.toNat) s.rB := by
  rw [squeezeStep_outlen, squeezeStep_optr, State.blockLen, Nat.sub_add_eq]

/-- Phase SQUEEZE says exactly that output remains: so it is after PAD and after each SQUEEZE. -/
def SqueezesWhileOutputRemains (s : State) : Prop :=
  s.phase = .squeeze ↔ 0 < s.outlen.toNat - s.optr.toNat

theorem squeezesWhileOutputRemains_squeezeStep {s : State} (hphase : s.phase = .squeeze) :
    SqueezesWhileOutputRemains (squeezeStep s) := by
  unfold SqueezesWhileOutputRemains
  rw [squeezeStep_phase, hphase, squeezeStep_outlen, squeezeStep_optr]
  split
  next hmore => exact iff_of_true rfl (by omega)
  next hlast => exact iff_of_false nofun (by omega)

theorem squeezesWhileOutputRemains_padStep (s : State) :
    SqueezesWhileOutputRemains (padStep (inputAbsorbed s)) := by
  unfold SqueezesWhileOutputRemains
  rw [padStep_phase, padStep_outlen, padStep_optr, inputAbsorbed_optr, inputAbsorbed_outlen]
  split
  next hout => exact iff_of_true rfl hout
  next hnone => exact iff_of_false nofun hnone

/-! ## The host sequence (R141) -/

theorem execSeq_append {is js : List Instr} {s t : State} (his : execSeq is s = .next t) :
    execSeq (is ++ js) s = execSeq js t := by
  induction is generalizing s with
  | nil => exact congrArg (execSeq js) (Host.Outcome.next.inj his)
  | cons i is ih =>
    obtain ⟨u, hu⟩ := exec_next i s
    rw [execSeq_cons is hu] at his
    rw [List.cons_append, execSeq_cons _ hu, ih his]

/-- One ABSORB for each chunk that remains is the absorb loop. -/
theorem execSeq_replicate_absorb (n : Nat) {s : State} (hB : 1 ≤ s.rB) (hphase : s.phase = .absorb)
    (hn : s.inlen.toNat - s.iptr.toNat ≤ n) :
    execSeq (List.replicate (blockCount s.rB (s.inlen.toNat - s.iptr.toNat)) .absorb) s =
      .next (absorbLoop n s) := by
  induction n generalizing s with
  | zero =>
    rw [Nat.le_zero.1 hn, blockCount_zero hB]
    rfl
  | succ n ih =>
    rw [absorbLoop]
    by_cases hmore : s.iptr.toNat < s.inlen.toNat
    · rw [if_pos hmore, blockCount_of_pos hB (Nat.sub_pos_of_lt hmore), List.replicate_succ,
        execSeq_cons _ (exec_absorb_enabled ⟨hphase, hmore⟩), ← absorbStep_remaining,
        ← absorbStep_rB]
      refine ih (by rwa [absorbStep_rB]) (by rwa [absorbStep_phase]) ?_
      rw [absorbStep_remaining]
      omega
    · rw [if_neg hmore, Nat.sub_eq_zero_of_le (Nat.le_of_not_lt hmore), blockCount_zero hB]
      rfl

/-- One SQUEEZE for each block that remains is the squeeze loop. -/
theorem execSeq_replicate_squeeze (n : Nat) {s : State} (hB : 1 ≤ s.rB)
    (hs : SqueezesWhileOutputRemains s) (hn : s.outlen.toNat - s.optr.toNat ≤ n) :
    execSeq (List.replicate (blockCount s.rB (s.outlen.toNat - s.optr.toNat)) .squeeze) s =
      .next (squeezeLoop n s) := by
  induction n generalizing s with
  | zero =>
    rw [Nat.le_zero.1 hn, blockCount_zero hB]
    rfl
  | succ n ih =>
    rw [squeezeLoop]
    by_cases hphase : s.phase = .squeeze
    · rw [if_pos hphase, blockCount_of_pos hB (hs.1 hphase), List.replicate_succ,
        execSeq_cons _ (exec_squeeze_enabled hphase), ← squeezeStep_remaining, ← squeezeStep_rB]
      refine ih (by rwa [squeezeStep_rB]) (squeezesWhileOutputRemains_squeezeStep hphase) ?_
      have hmore := hs.1 hphase
      rw [squeezeStep_remaining]
      omega
    · rw [if_neg hphase, Nat.eq_zero_of_not_pos (mt hs.2 hphase), blockCount_zero hB]
      rfl

/-- Settles O35: INIT, the ABSORBs, PAD and the SQUEEZEs pass through KECCAK's own states. -/
theorem stepwiseEqualsWhole : Obligations.StepwiseEqualsWhole := by
  intro s hlegal
  have hB := (rB_of_legal hlegal).1
  have hinit : exec .init s = .next (openInvocation s) :=
    congrArg Host.Outcome.next (initStep_of_legal hlegal)
  have habsorbs : execSeq (List.replicate (blockCount s.rB s.inlen.toNat) .absorb) (openInvocation s) =
      .next (inputAbsorbed s) :=
    execSeq_replicate_absorb s.inlen.toNat (s := openInvocation s) hB rfl (Nat.sub_le _ _)
  have hpad : exec .pad (inputAbsorbed s) = .next (padStep (inputAbsorbed s)) :=
    exec_pad_enabled ⟨by simp, by rw [inputAbsorbed_iptr hlegal, inputAbsorbed_inlen]⟩
  have hsqueezes : execSeq (List.replicate (blockCount s.rB s.outlen.toNat) .squeeze)
      (padStep (inputAbsorbed s)) = .next (squeezeLoop s.outlen.toNat (padStep (inputAbsorbed s))) := by
    simpa using execSeq_replicate_squeeze s.outlen.toNat (s := padStep (inputAbsorbed s))
      (by simpa using hB) (squeezesWhileOutputRemains_padStep s) (by simp)
  refine ⟨keccakSteps s, ?_, rfl, by rw [keccakSteps_phase, if_pos hlegal]⟩
  calc execSeq (stepwiseCommands s) s
    _ = execSeq (List.replicate (blockCount s.rB s.inlen.toNat) Instr.absorb ++
          Instr.pad :: List.replicate (blockCount s.rB s.outlen.toNat) .squeeze)
          (openInvocation s) :=
      execSeq_cons _ hinit
    _ = execSeq (.pad :: List.replicate (blockCount s.rB s.outlen.toNat) .squeeze)
          (inputAbsorbed s) := execSeq_append habsorbs
    _ = execSeq (List.replicate (blockCount s.rB s.outlen.toNat) .squeeze)
          (padStep (inputAbsorbed s)) := execSeq_cons _ hpad
    _ = .next (squeezeLoop s.outlen.toNat (padStep (inputAbsorbed s))) := hsqueezes
    _ = .next (keccakSteps s) := by rw [keccakSteps_eq_loops hlegal]

/-! ## The number of permutations (R142) -/

/-- The absorb loop permutes once for each full block of the input that remains. -/
theorem absorbPermutes_eq (n : Nat) {s : State} (hB : 1 ≤ s.rB)
    (hn : s.inlen.toNat - s.iptr.toNat ≤ n) :
    absorbPermutes n s = (s.inlen.toNat - s.iptr.toNat) / s.rB := by
  induction n generalizing s with
  | zero => rw [Nat.le_zero.1 hn, Nat.zero_div]; rfl
  | succ n ih =>
    rw [absorbPermutes]
    by_cases hmore : s.iptr.toNat < s.inlen.toNat
    · have hrest := absorbStep_remaining s
      rw [if_pos hmore, ih (by rwa [absorbStep_rB]) (by omega), hrest, absorbStep_rB, State.chunkLen]
      rcases Nat.lt_or_ge (s.inlen.toNat - s.iptr.toNat) s.rB with hshort | hfull
      · rw [Nat.min_eq_left hshort.le, if_neg hshort.ne, Nat.sub_self, Nat.zero_div,
          Nat.div_eq_of_lt hshort]
      · rw [Nat.min_eq_right hfull, if_pos rfl, Nat.div_eq_sub_div hB hfull, Nat.add_comm]
    · rw [if_neg hmore, Nat.sub_eq_zero_of_le (Nat.le_of_not_lt hmore), Nat.zero_div]

/-- The squeeze loop permutes between two blocks. -/
theorem squeezePermutes_eq (n : Nat) {s : State} (hB : 1 ≤ s.rB)
    (hs : SqueezesWhileOutputRemains s) (hn : s.outlen.toNat - s.optr.toNat ≤ n) :
    squeezePermutes n s = blockCount s.rB (s.outlen.toNat - s.optr.toNat) - 1 := by
  induction n generalizing s with
  | zero => rw [Nat.le_zero.1 hn, blockCount_zero hB]; rfl
  | succ n ih =>
    rw [squeezePermutes]
    by_cases hphase : s.phase = .squeeze
    · have hmore := hs.1 hphase
      have hrest := squeezeStep_remaining s
      rw [if_pos hphase, copyBlock_optr, ← squeezeStep_optr,
        ih (by rwa [squeezeStep_rB]) (squeezesWhileOutputRemains_squeezeStep hphase) (by omega),
        squeezeStep_rB, blockCount_of_pos hB hmore, ← hrest, Nat.add_sub_cancel,
        ← squeezeStep_outlen s]
      by_cases hlater : (squeezeStep s).optr.toNat < (squeezeStep s).outlen.toNat
      · rw [if_pos hlater, blockCount_of_pos hB (Nat.sub_pos_of_lt hlater)]
        omega
      · rw [if_neg hlater, Nat.sub_eq_zero_of_le (Nat.le_of_not_lt hlater), blockCount_zero hB]
    · rw [if_neg hphase, Nat.eq_zero_of_not_pos (mt hs.2 hphase), blockCount_zero hB]

/-- PAD permutes once, and once more where the suffix's top bit lands on the block's last byte. -/
theorem padPermutes_eq (s : State) : padPermutes s =
    1 + if s.sfx.getLsbD 7 = true ∧ s.blk.toNat = s.rB - 1 then 1 else 0 := by
  unfold padPermutes
  split <;> rfl

theorem keccakPermutes_eq (s : State) : keccakPermutes s =
    absorbPermutes s.inlen.toNat (openInvocation s) + padPermutes (inputAbsorbed s) +
      squeezePermutes s.outlen.toNat (padStep (inputAbsorbed s)) := rfl

/-- Settles O36: the sum of the three counts. -/
theorem permutationCount : Obligations.PermutationCount := by
  intro s hlegal
  have hB := (rB_of_legal hlegal).1
  have habsorb : absorbPermutes s.inlen.toNat (openInvocation s) = s.inlen.toNat / s.rB :=
    absorbPermutes_eq s.inlen.toNat (s := openInvocation s) hB (Nat.sub_le _ _)
  have hpad : padPermutes (inputAbsorbed s) =
      1 + if s.sfx.getLsbD 7 = true ∧ s.inlen.toNat % s.rB = s.rB - 1 then 1 else 0 := by
    simp only [padPermutes_eq, inputAbsorbed_sfx, inputAbsorbed_blk hlegal, inputAbsorbed_rB]
  have hsqueeze : squeezePermutes s.outlen.toNat (padStep (inputAbsorbed s)) =
      blockCount s.rB s.outlen.toNat - 1 := by
    simpa using squeezePermutes_eq s.outlen.toNat (s := padStep (inputAbsorbed s))
      (by simpa using hB) (squeezesWhileOutputRemains_padStep s) (by simp)
  rw [keccakPermutes_eq, habsorb, hpad, hsqueeze, ← Nat.add_assoc]
  rfl

/-! ## A shorter output is a beginning (R143) -/

/-- The output loop asked for n bytes gives the first n of those it gives when asked for more. -/
theorem squeezeBytes_eq_take {rB : Nat} (hB : 1 ≤ rB) {f g n m : Nat} (hn : n ≤ f) (hm : m ≤ g)
    (hle : n ≤ m) (L : Lanes) : squeezeBytes rB f n L = (squeezeBytes rB g m L).take n := by
  induction f generalizing g n m L with
  | zero => rw [Nat.le_zero.1 hn, List.take_zero]; rfl
  | succ f ih =>
    by_cases hzero : n = 0
    · rw [hzero, List.take_zero]; rfl
    · obtain ⟨g, rfl⟩ : ∃ g', g = g' + 1 := ⟨g - 1, by omega⟩
      have hfront : min n (min m rB) = min n rB := by omega
      have hback : n - min m rB = n - min n rB := by omega
      rw [squeezeBytes, squeezeBytes, if_neg hzero, if_neg (by omega), List.take_append,
        ← List.map_take, List.take_range, List.length_map, List.length_range, hfront, hback,
        ih (g := g) (m := m - min m rB) (by omega) (by omega) (by omega)]

theorem sponge_eq_take {rate n m : Nat} (cap : Nat) (M : List Byte) (sfx : Byte) (hrate : 8 ≤ rate)
    (hle : n ≤ m) : sponge rate cap M sfx n = (sponge rate cap M sfx m).take n :=
  squeezeBytes_eq_take (by omega) le_rfl le_rfl hle _

/-- Two runs of the KECCAK steps that differ in OUTLEN alone agree on the shorter output. -/
theorem keccakSteps_outByte_of_le {s : State} {n m : Word} (hle : n.toNat ≤ m.toNat)
    (hn : LegalParams { s with outlen := n }) (hm : LegalParams { s with outlen := m }) {a : Nat}
    (ha : a < n.toNat) :
    (keccakSteps { s with outlen := n }).outByte a =
      (keccakSteps { s with outlen := m }).outByte a := by
  obtain ⟨-, -, hmod, hpos, -⟩ := id hn
  have hshort := (keccakSteps_spec (checkParams_none.2 hn)).2 a
  have hlong := (keccakSteps_spec (checkParams_none.2 hm)).2 a
  rw [if_pos ha, sponge_eq_take (m := m.toNat) _ _ _ (by omega) hle, List.getD_eq_getElem?_getD,
    List.getElem?_take_of_lt ha] at hshort
  rw [if_pos (ha.trans_le hle), List.getD_eq_getElem?_getD] at hlong
  exact hshort.trans hlong.symm

theorem startsInvocation_of_mem {i : Instr} (hi : i ∈ [Instr.keccak, .shake128, .shake256]) :
    startsInvocation i = true ∧ i ≠ .init := by
  revert i
  decide

/-- The three commands that take OUTLEN from the host load nothing into it. -/
theorem loaded_outlen {i : Instr} (hi : i ∈ [Instr.keccak, .shake128, .shake256]) (s : State)
    (n : Word) : loaded i { s with outlen := n } = { loaded i s with outlen := n } := by
  simp only [List.mem_cons, List.not_mem_nil, or_false] at hi
  rcases hi with rfl | rfl | rfl <;> rfl

/-- Settles O37: a sponge's shorter output is a beginning, and the three commands compute the sponge. -/
theorem shorterOutputIsABeginning : Obligations.ShorterOutputIsABeginning := by
  refine ⟨fun _ cap M sfx _ _ hrate hle => sponge_eq_take cap M sfx hrate hle, ?_⟩
  intro i s n m hi hle hlegal
  have hexec : ∀ k : Word,
      exec i { s with outlen := k } = .next (keccakSteps { loaded i s with outlen := k }) := by
    intro k
    obtain ⟨hstarts, hinit⟩ := startsInvocation_of_mem hi
    rw [exec_eq_keccakSteps hstarts hinit, loaded_outlen hi]
  rw [loaded_outlen hi] at hlegal
  have hlegal' : LegalParams { loaded i s with outlen := n } :=
    ⟨hle.trans hlegal.1, hlegal.2⟩
  refine ⟨_, _, hexec n, hexec m, ?_, ?_,
    fun a ha => keccakSteps_outByte_of_le hle hlegal' hlegal ha⟩
  · rw [keccakSteps_phase, if_pos hlegal']
  · rw [keccakSteps_phase, if_pos hlegal]

/-! ## The phase machine (R139) -/

/-- The cells E:SEQ of the table are those of the commands that are not enabled. -/
theorem phaseAfter_of_not_enabled {i : Instr} {s : State} (hnot : ¬enabled i s) :
    phaseAfter i s (raiseErr .seq s) := by
  have herror : (raiseErr .seq s).phase = .error ∧ (raiseErr .seq s).errcode = .seq := ⟨rfl, rfl⟩
  cases i
  case pinit | theta | rhopi | chi | iota | f1600 =>
    have hopen : s.phase = .absorb ∨ s.phase = .squeeze := by
      simp only [enabled] at hnot
      tauto
    exact (if_pos hopen).mpr herror
  case round =>
    have hcell : s.phase = .absorb ∨ s.phase = .squeeze ∨ 24 ≤ s.rnd.toNat := by
      simp only [enabled, ← Nat.not_le] at hnot
      tauto
    exact (if_pos hcell).mpr herror
  case absorb | pad | squeeze => exact (if_neg hnot).mpr herror
  all_goals exact absurd trivial hnot

/-- An enabled permutation command leaves the phase. -/
theorem exec_permutation_phase {i : Instr} {s : State} (hperm : isPermutation i = true)
    (henabled : enabled i s) : ∃ t, exec i s = .next t ∧ t.phase = s.phase := by
  obtain ⟨hclosed, hrnd⟩ := (enabled_iff_of_isPermutation hperm s).1 henabled
  have hphase : s.phase = .idle ∨ s.phase = .done ∨ s.phase = .error := by
    cases h : s.phase <;> simp [State.isOpen, h] at hclosed ⊢
  obtain ⟨t, hexec, ht⟩ := (permutationCommandsKeepTheRest i s hperm).2 hphase (by tauto)
  exact ⟨t, hexec, by rw [ht]⟩

theorem initStep_phase (s : State) :
    (initStep s).phase = if LegalParams s then .absorb else .error := by
  by_cases hlegal : LegalParams s
  · rw [if_pos hlegal, initStep_of_legal hlegal, openInvocation_phase]
  · obtain ⟨c, hcheck⟩ := exists_checkParams_of_not_legal hlegal
    rw [if_neg hlegal, initStep_of_error hcheck, raiseErr_phase]

/-- The cell of KECCAK and of the wrappers. -/
theorem phaseAfter_iff_of_starts {i : Instr} (hstarts : startsInvocation i = true) (hinit : i ≠ .init)
    (s t : State) :
    phaseAfter i s t ↔ t.phase = if LegalParams (loaded i s) then .done else .error := by
  cases i
  case init => exact absurd rfl hinit
  case keccak | sha3_224 | sha3_256 | sha3_384 | sha3_512 | shake128 | shake256 =>
    exact iff_of_eq (apply_ite (t.phase = ·) _ _ _).symm
  all_goals cases hstarts

theorem exec_phaseAfter_of_starts {i : Instr} (hstarts : startsInvocation i = true) (hinit : i ≠ .init)
    (s : State) : ∃ t, exec i s = .next t ∧ phaseAfter i s t :=
  ⟨_, exec_eq_keccakSteps hstarts hinit s,
    (phaseAfter_iff_of_starts hstarts hinit s _).2 (keccakSteps_phase _)⟩

/-- An enabled command ends in the phase its cell names. -/
theorem exec_phaseAfter_of_enabled {i : Instr} {s : State} (henabled : enabled i s) :
    ∃ t, exec i s = .next t ∧ phaseAfter i s t := by
  cases i
  case pinit | theta | rhopi | chi | iota | f1600 =>
    obtain ⟨t, hexec, hphase⟩ := exec_permutation_phase rfl henabled
    exact ⟨t, hexec, (if_neg (not_or.2 henabled)).mpr hphase⟩
  case round =>
    obtain ⟨t, hexec, hphase⟩ := exec_permutation_phase rfl henabled
    obtain ⟨habs, hsq, hrnd⟩ := henabled
    exact ⟨t, hexec, (if_neg (by simp [habs, hsq, hrnd])).mpr hphase⟩
  case init =>
    refine ⟨_, exec_init s, ?_⟩
    simp only [phaseAfter, initStep_phase]
    split <;> rfl
  case absorb =>
    exact ⟨_, exec_absorb_enabled henabled,
      (if_pos henabled).mpr ((absorbStep_phase s).trans henabled.1)⟩
  case pad =>
    refine ⟨_, exec_pad_enabled henabled, (if_pos henabled).mpr ?_⟩
    rw [padStep_phase]
    split <;> rfl
  case squeeze =>
    refine ⟨_, exec_squeeze_enabled henabled, (if_pos henabled).mpr ?_⟩
    have hcell : s.optr.toNat + s.blockLen < s.outlen.toNat ↔
        s.rate.toNat / 8 < s.outlen.toNat - s.optr.toNat := by
      unfold State.blockLen State.rB
      omega
    rw [squeezeStep_phase, henabled]
    simp only [hcell]
    split <;> rfl
  case keccak | sha3_224 | sha3_256 | sha3_384 | sha3_512 | shake128 | shake256 =>
    exact exec_phaseAfter_of_starts rfl (by decide) s

/-- Settles O43: the table's cells by whether the command is enabled, and the row of illegal words. -/
theorem phaseMachineTable : Obligations.PhaseMachineTable := by
  refine ⟨fun i s => ?_, fun w s hillegal => ?_⟩
  · by_cases henabled : enabled i s
    · exact exec_phaseAfter_of_enabled henabled
    · exact ⟨_, exec_of_not_enabled henabled, phaseAfter_of_not_enabled henabled⟩
  · exact ⟨_, (illegalWordRaisesErrCmd w).1 hillegal s, rfl, rfl⟩

end Sys2Proof.Machine
end

section
/-! PROOFS. Family 42_wrappers.md: a wrapper is KECCAK on its row, so it computes the row's sponge
function or raises one of the two length errors, and its output depends on its input only. -/

namespace Sys2Proof.Machine

open Sys2Proof.Safety

/-! ## The parameter check on a loaded row (R160, R166) -/

/-- Every row passes the RATE and CAP checks of 41_sponge.md R131. -/
theorem row_rate_legal {i : Instr} {w : Row} (hrow : row i = some w) :
    w.rate.toNat + w.cap.toNat = 1600 ∧ w.rate.toNat % 8 = 0 ∧ w.rate.toNat ≠ 0 := by
  cases i
  case sha3_224 | sha3_256 | sha3_384 | sha3_512 | shake128 | shake256 =>
    cases hrow
    decide
  all_goals cases hrow

section
variable {i : Instr} {w : Row} (hrow : row i = some w) (s : State)
include hrow

/-- With a row loaded the two length limits are all that is left of CheckParams. -/
theorem legalParams_load_iff : LegalParams (w.load s) ↔
    (w.outlen.getD s.outlen).toNat ≤ s.params.outBytes ∧ s.inlen.toNat ≤ s.params.inBytes := by
  obtain ⟨hsum, hmod, hpos⟩ := row_rate_legal hrow
  exact ⟨fun ⟨hout, _, _, _, hin⟩ => ⟨hout, hin⟩, fun ⟨hout, hin⟩ => ⟨hout, hsum, hmod, hpos, hin⟩⟩

/-- The errors a loaded row can raise: ERR_LEN and, after it, ERR_INLEN (42_wrappers.md R166). -/
theorem checkParams_load_eq_some (c : ErrCode) : checkParams (w.load s) = some c ↔
    (c = .len ∧ (w.outlen.getD s.outlen).toNat > s.params.outBytes) ∨
    (c = .inlen ∧ (w.outlen.getD s.outlen).toNat ≤ s.params.outBytes ∧
      s.inlen.toNat > s.params.inBytes) := by
  obtain ⟨hsum, hmod, hpos⟩ := row_rate_legal hrow
  rw [checkParams_eq_some]
  cases c <;> simp [raisesParam, Row.load, hsum, hmod, hpos]

theorem exec_row_of_error {c : ErrCode} (hcheck : checkParams (w.load s) = some c) :
    exec i s = .next (raiseErr c (w.load s)) := by
  rw [exec_row hrow, keccakSteps_of_error hcheck]

end

/-- Settles O38: KECCAK's result on the loaded row, whose parameters the two limits make legal. -/
theorem wrapperComputesSponge : Obligations.WrapperComputesSponge := by
  intro i w s hrow
  have hkeccak : exec i s = exec .keccak (w.load s) := exec_row hrow s
  refine ⟨hkeccak, fun hout hin => ?_⟩
  obtain ⟨t, hexec, ht, -, hbytes⟩ :=
    keccakComputesSponge.2 (w.load s) ((legalParams_load_iff hrow s).2 ⟨hout, hin⟩)
  exact ⟨t, hkeccak.trans hexec, ht, hbytes⟩

/-- Settles O39: the check on the loaded row raises one of two errors, and a passed check ends in DONE. -/
theorem wrapperErrorsKeepTheLoads : Obligations.WrapperErrorsKeepTheLoads := by
  intro i w s hrow
  refine ⟨fun hlen => ?_, fun hout hinlen => ?_, fun t hexec herror => ?_⟩
  · exact exec_row_of_error hrow s ((checkParams_load_eq_some hrow s .len).2 (.inl ⟨rfl, hlen⟩))
  · exact exec_row_of_error hrow s
      ((checkParams_load_eq_some hrow s .inlen).2 (.inr ⟨rfl, hout, hinlen⟩))
  · obtain rfl : keccakSteps (w.load s) = t :=
      Host.Outcome.next.inj ((exec_row hrow s).symm.trans hexec)
    have hillegal : ¬LegalParams (w.load s) := fun hlegal => by
      rw [keccakSteps_phase, if_pos hlegal] at herror
      cases herror
    obtain ⟨c, hcheck⟩ := exists_checkParams_of_not_legal hillegal
    rw [keccakSteps_of_error hcheck, raiseErr_errcode]
    rcases (checkParams_load_eq_some hrow s c).1 hcheck with hlen | ⟨hcode, -, hinlen⟩
    · exact .inl hlen
    · exact .inr ⟨hcode, hinlen⟩

/-! ## The output depends on the input only (R169) -/

/-- The input is the bytes of IN below INLEN, whatever else IN holds. -/
theorem inputBytes_eq_of_inByte {s t : State} (hlen : s.inlen = t.inlen)
    (hbyte : ∀ a, a < s.inlen.toNat → s.inByte a = t.inByte a) : s.inputBytes = t.inputBytes := by
  rw [State.inputBytes, State.inputBytes, ← hlen]
  exact List.map_congr_left fun a ha => hbyte a (List.mem_range.1 ha)

/-- OUTLEN after the loads: fixed by the row, or the host's. -/
theorem outlen_getD_congr {w : Row} {s t : State} (h : w.outlen = none → s.outlen = t.outlen) :
    w.outlen.getD s.outlen = w.outlen.getD t.outlen := by
  cases hfixed : w.outlen with
  | none => exact h hfixed
  | some n => rfl

/-- Settles O40: both runs write the sponge function of the same row, input and output length. -/
theorem wrapperIsDeterministic : Obligations.WrapperIsDeterministic := by
  intro i w s s' hrow hinlen hbyte houtlen hlegal hlegal'
  obtain ⟨hout, hin⟩ := (legalParams_load_iff hrow s).1 hlegal
  obtain ⟨hout', hin'⟩ := (legalParams_load_iff hrow s').1 hlegal'
  obtain ⟨t, hexec, ht, hbytes⟩ := (wrapperComputesSponge i w s hrow).2 hout hin
  obtain ⟨t', hexec', ht', hbytes'⟩ := (wrapperComputesSponge i w s' hrow).2 hout' hin'
  have hlen := outlen_getD_congr houtlen
  have hoptr : t.optr = w.outlen.getD s.outlen := by rw [ht]
  refine ⟨t, t', hexec, hexec', by rw [ht], by rw [ht'], by rw [ht], by rw [ht],
    by rw [ht', hoptr, hlen], fun a ha => ?_⟩
  rw [hoptr] at ha
  rw [hbytes, hbytes', ← hlen, if_pos ha, if_pos ha, inputBytes_eq_of_inByte hinlen hbyte]

end Sys2Proof.Machine
end

section
/-! PROOFS. Family 43_host_access.md: a step takes the oldest event and completes, which
transactions are refused, and what an accepted read returns and an accepted write stores. -/

namespace Sys2Proof.Machine

open Sys2Proof.Safety

/-! ## The step (R182, R186) -/

/-- Settles O9, by the frame of a step. -/
theorem everyStepCompletesInHostOrder : Obligations.EveryStepCompletesInHostOrder := fun s =>
  let ⟨t, hstep, hpending, _⟩ := step_frame s
  ⟨t, hstep, hpending⟩

/-- With a transaction the oldest event, a step performs it on the state without that event. -/
theorem step_transaction {x : Transaction} {rest : List HostEvent} {s : State}
    (hpending : s.pending = .transaction x :: rest) :
    step s = perform x { s with pending := rest } := by
  rw [step, runNext, hpending]
  rfl

/-- A WR to CMD of a command's word runs the command and answers OK. -/
theorem perform_wr_cmd_of_decode {w : Word} {i : Instr} {s t : State} (hdecode : decode w = .ok i)
    (hexec : exec i s = .next t) : perform (.wr 32 0x00 w) s = .next (respond .ok t) := by
  simp only [perform_wr_cmd, writeCmd, hdecode, hexec]

/-- Settles O6: the step performs the WR, and the WR runs the command. -/
theorem stepRunsDecodedCommand : Obligations.StepRunsDecodedCommand := by
  intro s t rest w i hpending hdecode hexec
  rw [step_transaction hpending]
  exact perform_wr_cmd_of_decode hdecode hexec

theorem decode_of_decodeTableWord {nbits w : Nat} {i : Instr} (h : decodeTableWord nbits w = some i) :
    decode (tableWord nbits w) = .ok i := by
  unfold decodeTableWord at h
  split at h
  next j hdecode => rw [hdecode, Option.some.inj h]
  next => cases h

/-- Settles O7: the word placed is the oldest event, and without that event the state is s. -/
theorem fetchWordRunsNext : Obligations.FetchWordRunsNext := fun s t _ i hword hexec =>
  stepRunsDecodedCommand _ t s.pending _ i rfl (decode_of_decodeTableWord hword) hexec

/-! ## Refusal (R184, R185) -/

/-- A refused transaction changes the response only. -/
theorem perform_of_refusedBy {x : Transaction} {s : State} (hrefused : refusedBy x s) :
    perform x s = .next (respond .refused s) :=
  if_pos ((refuses_iff x s).2 hrefused)

/-- Every transaction completes, and the clauses of R184 decide the response. -/
theorem exists_perform (x : Transaction) (s : State) :
    ∃ t, perform x s = .next t ∧ (t.response = some .refused ↔ refusedBy x s) := by
  obtain ⟨resp, u, hperform, hresp, -⟩ := perform_cases x s
  exact ⟨_, hperform, Option.some_inj.trans (hresp.trans (refuses_iff x s))⟩

/-- Settles O46: the model's refusal test is R184's enumeration, and only a refusal answers REFUSED. -/
theorem refusedExactlyWhen : Obligations.RefusedExactlyWhen := by
  refine fun x s => ⟨perform_of_refusedBy, fun haccepted => ?_⟩
  obtain ⟨t, hperform, hresp⟩ := exists_perform x s
  exact ⟨t, hperform, mt hresp.1 haccepted⟩

/-- The writable registers are the offsets of the map that no clause of R184 takes away. -/
theorem writable_offset_iff (offset : Nat) :
    offset ∈ [0x00, 0x08, 0x0C, 0x10, 0x14, 0x18] ↔
      ¬(offset % 4 ≠ 0 ∨ offset > 0x28 ∨ offset ∈ [0x04, 0x1C, 0x20, 0x24, 0x28]) := by
  simp only [List.mem_cons, List.not_mem_nil, or_false]
  omega

/-- With no invocation open the write lock (f) is off, and the other clauses of R184 are those of the
model's well-formedness. -/
theorem wf_iff_not_refusedBy {s : State} (hclosed : s.isOpen = false) (x : Transaction) :
    x.wf s.params = true ↔ ¬refusedBy x s := by
  have hunlocked : ¬(s.phase = .absorb ∨ s.phase = .squeeze) := by simp [← isOpen_iff, hclosed]
  cases x with
  | rd width offset =>
    simp only [Transaction.wf, refusedBy, Bool.and_eq_true, beq_iff_eq, decide_eq_true_eq]
    omega
  | wr width offset v =>
    simp only [Transaction.wf, refusedBy, Bool.and_eq_true, beq_iff_eq, List.contains_iff_mem,
      writable_offset_iff, hunlocked, and_false]
    tauto
  | rdb space width offset =>
    simp only [Transaction.wf, refusedBy, Bool.and_eq_true, beq_iff_eq, decide_eq_true_eq]
    omega
  | wrb space width offset v =>
    simp only [Transaction.wf, refusedBy, Bool.and_eq_true, beq_iff_eq, bne_iff_ne, decide_eq_true_eq,
      hunlocked]
    rw [← Nat.not_le]
    tauto

/-- Settles O47: what is not well formed is what R184 refuses. -/
theorem wellFormedExactlyAccepted : Obligations.WellFormedExactlyAccepted := by
  intro x s hclosed
  obtain ⟨t, hperform, hresp⟩ := exists_perform x s
  exact ⟨t, hperform, (wf_iff_not_refusedBy hclosed x).trans (not_congr hresp.symm)⟩

/-- Settles O48: both kinds of write fall under clause (f). -/
theorem writeLock : Obligations.WriteLock := by
  refine fun s hopen => ⟨fun width reg v hreg => ?_, fun width offset space v _ => ?_⟩
  · have hoffset : reg.offset ∈ [0x08, 0x0C, 0x10, 0x14, 0x18] := List.mem_map_of_mem hreg
    exact perform_of_refusedBy (.inr (.inr (.inr (.inr ⟨hoffset, hopen⟩))))
  · exact perform_of_refusedBy (.inr (.inr (.inr hopen)))

/-! ## What a read returns (R181, R183) -/

/-- A 32-bit RD of a register is accepted in every phase. -/
theorem perform_rd (reg : Csr) (s : State) :
    perform (.rd 32 reg.offset) s = .next (respond (.okWord (readCsr reg s)) s) := by
  simp [perform, refuses, accept, Csr.ofOffset_offset]

/-- An 8-bit RDB at an offset its space has is accepted in every phase. -/
theorem perform_rdb {space : Space} {offset : Nat} {s : State} (hin : offset < spaceSize space s) :
    perform (.rdb space 8 offset) s = .next (respond (.okByte (readSpace space offset s)) s) := by
  simp [perform, refuses, accept, hin]

/-- Two fields put together: the upper one counts in units of the lower one's range. -/
theorem toNat_append_eq_add {n m : Nat} (x : BitVec n) (y : BitVec m) :
    (x ++ y).toNat = 2 ^ m * x.toNat + y.toNat := by
  rw [BitVec.toNat_append, Nat.shiftLeft_eq, Nat.mul_comm, Nat.two_pow_add_eq_or_of_lt y.isLt]

/-- STATUS: ERRCODE stands four bits above PHASE (10_state.md R39). -/
theorem statusWord_eq (s : State) :
    statusWord s = BitVec.ofNat 32 (s.phase.code.toNat + 16 * s.errcode.code.toNat) := by
  apply BitVec.eq_of_toNat_eq
  simp only [statusWord, toNat_append_eq_add, BitVec.toNat_ofNat]
  omega

/-- PERM: R stands eight bits above RND (10_state.md R39). -/
theorem permWord_eq (s : State) :
    permWord s = BitVec.ofNat 32 (s.rnd.toNat + 256 * s.r.toNat) := by
  apply BitVec.eq_of_toNat_eq
  simp only [permWord, toNat_append_eq_add, BitVec.toNat_ofNat]
  omega

/-- A 32-bit RD of a register whose word is the number n returns n. -/
theorem perform_rd_of_readCsr {reg : Csr} {n : Nat} {s : State}
    (hvalue : readCsr reg s = BitVec.ofNat 32 n) :
    perform (.rd 32 reg.offset) s =
      .next { s with response := some (.okWord (BitVec.ofNat 32 n)) } := by
  rw [perform_rd, hvalue]
  rfl

/-- Settles O50: each register is read at its own offset, and its word is the number listed. -/
theorem registerReadValues : Obligations.RegisterReadValues := by
  intro s reads
  have hword : ∀ w : Word, w = BitVec.ofNat 32 w.toNat := fun w => by simp
  have hbyte : ∀ b : Byte, b.setWidth 32 = BitVec.ofNat 32 b.toNat := fun b => by simp
  have hread := fun reg n => perform_rd_of_readCsr (reg := reg) (n := n) (s := s)
  exact ⟨hread .cmd _ rfl, hread .status _ (statusWord_eq s), hread .rate _ (hword _),
    hread .cap _ (hword _), hread .sfx _ (hbyte _), hread .inlen _ (hword _),
    hread .outlen _ (hword _), hread .blk _ (hbyte _), hread .iptr _ (hword _),
    hread .optr _ (hword _), hread .perm _ (permWord_eq s)⟩

/-- Settles O54: each space is read at the offset. -/
theorem byteReadValues : Obligations.ByteReadValues := fun _ _ =>
  ⟨perform_rdb (space := .stateBytes), perform_rdb (space := .input), perform_rdb (space := .output)⟩

/-! ## What a write stores (R182, R183) -/

/-- Settles O52: each parameter register is written at its own offset, SFX with the low byte. -/
theorem parameterWrites : Obligations.ParameterWrites := by
  intro s v hclosed
  have hwrite := fun reg hparam => perform_wr_param (reg := reg) v hparam hclosed
  have hlow : BitVec.ofNat 8 (v.toNat % 256) = v.setWidth 8 := by
    apply BitVec.eq_of_toNat_eq
    simp
  rw [hlow]
  exact ⟨hwrite .rate rfl, hwrite .cap rfl, hwrite .sfx rfl, hwrite .inlen rfl, hwrite .outlen rfl⟩

/-- Settles O16: no invocation is open in phase DONE. -/
theorem outlenWritableWhenDone : Obligations.OutlenWritableWhenDone := by
  intro s v hdone
  have hclosed : s.isOpen = false := isOpen_eq_false_of_phase (.inr (.inl hdone))
  obtain ⟨-, -, -, -, houtlen⟩ := parameterWrites s v hclosed
  exact houtlen

/-- Settles O53: one byte of the lanes, or one byte of the buffer, is replaced. -/
theorem byteWrites : Obligations.ByteWrites := by
  refine fun s offset v hclosed => ⟨fun hin => ?_, fun hin => ?_⟩
  · refine ⟨s.lanes.setByte offset v, perform_wrb (space := .stateBytes) v nofun hin hclosed,
      fun a _ => ?_⟩
    simp only [Lanes.byte_setByte, hin, and_true]
  · refine ⟨_, perform_wrb (space := .input) v nofun hin hclosed, rfl, fun a => ?_⟩
    change ((s.inBuf.set offset v).get? a).getD (Config.freeInByte s.epoch a) = _
    rw [Memory.get?_set]
    split <;> rfl

end Sys2Proof.Machine
end

section
/-! PROOFS. Family 60_exceptions.md: which commands raise an error, that an error changes PHASE and
ERRCODE only, and the ways out of phase ERROR. -/

namespace Sys2Proof.Machine

open Sys2Proof.Safety

/-! ## When a command raises no error (R202, R205) -/

/-- A command that is not enabled has no row to load: the wrappers are enabled in every phase. -/
theorem loaded_of_not_enabled {i : Instr} {s : State} (hnot : ¬enabled i s) : loaded i s = s := by
  cases i
  case sha3_224 | sha3_256 | sha3_384 | sha3_512 | shake128 | shake256 => exact absurd trivial hnot
  all_goals rfl

/-- None of R202's causes holds exactly when the command is enabled and its parameter check passes. -/
theorem forall_not_raises_iff (i : Instr) (s : State) : (∀ c, ¬raises i c s) ↔
    enabled i s ∧ (startsInvocation i = true → LegalParams (loaded i s)) := by
  have hcheck : (∀ c, ¬raisesParam c (loaded i s)) ↔ LegalParams (loaded i s) := by
    simp only [← checkParams_eq_some, ← checkParams_none, Option.eq_none_iff_forall_ne_some, ne_eq]
  simp only [raises, not_or, not_and, forall_and, forall_eq, not_not, ← hcheck]
  exact and_congr_right fun _ => forall_comm

/-- Settles O41: a command that is not enabled loads no row, and the parameter check is made after the
loads. -/
theorem errorsArePrecise : Obligations.ErrorsArePrecise := by
  rintro i c s (⟨rfl, hnot⟩ | ⟨hstarts, hparam⟩)
  · rw [loaded_of_not_enabled hnot]
    exact exec_of_not_enabled hnot
  · obtain ⟨-, -, hraise⟩ := checkParamsDecides s
    exact hraise i c hstarts ((checkParams_eq_some _ c).2 hparam)

/-! ## Commands that succeed -/

/-- In phase ERROR an enabled permutation command leaves ERRCODE (40_permutation.md R100). -/
theorem exec_permutation_errcode {i : Instr} {s : State} (hperm : isPermutation i = true)
    (henabled : enabled i s) (herror : s.phase = .error) :
    ∃ t, exec i s = .next t ∧ t.errcode = s.errcode := by
  obtain ⟨-, hrnd⟩ := (enabled_iff_of_isPermutation hperm s).1 henabled
  obtain ⟨t, hexec, ht⟩ :=
    (permutationCommandsKeepTheRest i s hperm).2 (.inr (.inr herror)) (by tauto)
  exact ⟨t, hexec, by rw [ht]⟩

/-- With legal parameters a command that starts an invocation clears the error (41_sponge.md R132). -/
theorem exec_of_legal {i : Instr} {s : State} (hstarts : startsInvocation i = true)
    (hlegal : LegalParams (loaded i s)) :
    ∃ t, exec i s = .next t ∧ t.phase ≠ .error ∧ t.errcode = .none := by
  by_cases hinit : i = .init
  · subst hinit
    exact ⟨_, congrArg Host.Outcome.next (initStep_of_legal hlegal), nofun, rfl⟩
  · refine ⟨_, exec_eq_keccakSteps hstarts hinit s, ?_⟩
    rw [keccakSteps_of_legal hlegal]
    exact ⟨nofun, rfl⟩

/-- ABSORB, PAD and SQUEEZE, once enabled, end in phase ABSORB, SQUEEZE or DONE. -/
theorem exec_stepwise_phase {i : Instr} {s : State} (hi : i = .absorb ∨ i = .pad ∨ i = .squeeze)
    (henabled : enabled i s) : ∃ t, exec i s = .next t ∧ t.phase ≠ .error := by
  rcases hi with rfl | rfl | rfl
  · refine ⟨_, exec_absorb_enabled henabled, ?_⟩
    rw [absorbStep_phase, henabled.1]
    nofun
  · refine ⟨_, exec_pad_enabled henabled, ?_⟩
    rw [padStep_phase]
    split <;> nofun
  · refine ⟨_, exec_squeeze_enabled henabled, ?_⟩
    rw [squeezeStep_phase, henabled]
    split <;> nofun

/-- The three kinds of command. -/
theorem permutation_or_starts_or_stepwise (i : Instr) :
    isPermutation i = true ∨ startsInvocation i = true ∨ (i = .absorb ∨ i = .pad ∨ i = .squeeze) := by
  cases i <;> decide

/-- Settles O42, by the kind of the command. -/
theorem noErrorWithoutCause : Obligations.NoErrorWithoutCause := by
  intro i s hnone
  obtain ⟨henabled, hlegal⟩ := (forall_not_raises_iff i s).1 hnone
  rcases permutation_or_starts_or_stepwise i with hperm | hstarts | hstepwise
  · by_cases herror : s.phase = .error
    · obtain ⟨t, hexec, herrcode⟩ := exec_permutation_errcode hperm henabled herror
      exact ⟨t, hexec, fun _ => ⟨hperm, herror, herrcode⟩⟩
    · obtain ⟨t, hexec, hphase⟩ := exec_permutation_phase hperm henabled
      exact ⟨t, hexec, fun h => absurd (hphase.symm.trans h) herror⟩
  · obtain ⟨t, hexec, hphase, -⟩ := exec_of_legal hstarts (hlegal hstarts)
    exact ⟨t, hexec, fun herror => absurd herror hphase⟩
  · obtain ⟨t, hexec, hphase⟩ := exec_stepwise_phase hstepwise henabled
    exact ⟨t, hexec, fun herror => absurd herror hphase⟩

/-! ## The ways out of phase ERROR (R207) -/

/-- A command issued in phase ERROR leaves it only by starting an invocation. -/
theorem exec_leaves_error {i : Instr} {s t : State} (herror : s.phase = .error)
    (hexec : exec i s = .next t) (hleft : t.phase ≠ .error) :
    startsInvocation i = true ∧ LegalParams (loaded i s) ∧ t.errcode = .none := by
  have hnone : ∀ c, ¬raises i c s := fun c hraises => by
    obtain rfl := Host.Outcome.next.inj (hexec.symm.trans (errorsArePrecise i c s hraises))
    exact hleft rfl
  obtain ⟨henabled, hlegal⟩ := (forall_not_raises_iff i s).1 hnone
  rcases permutation_or_starts_or_stepwise i with hperm | hstarts | rfl | rfl | rfl
  · obtain ⟨u, hu, hphase⟩ := exec_permutation_phase hperm henabled
    obtain rfl := Host.Outcome.next.inj (hexec.symm.trans hu)
    exact absurd (hphase.trans herror) hleft
  · obtain ⟨u, hu, -, hcleared⟩ := exec_of_legal hstarts (hlegal hstarts)
    obtain rfl := Host.Outcome.next.inj (hexec.symm.trans hu)
    exact ⟨hstarts, hlegal hstarts, hcleared⟩
  · exact absurd (herror.symm.trans henabled.1) nofun
  · exact absurd (herror.symm.trans henabled.1) nofun
  · exact absurd (herror.symm.trans henabled) nofun

/-- A transaction that leads out of phase ERROR is a WR to CMD of a command that starts an invocation. -/
theorem perform_leaves_error {x : Transaction} {s t : State} (herror : s.phase = .error)
    (hperform : perform x s = .next t) (hleft : t.phase ≠ .error) :
    ∃ i, startsInvocation i = true ∧ .transaction x = issue i ∧ LegalParams (loaded i s) ∧
      t.errcode = .none := by
  obtain ⟨resp, u, hresult, -, hcases⟩ := perform_cases x s
  obtain rfl := Host.Outcome.next.inj (hresult.symm.trans hperform)
  rcases hcases with rfl | ⟨w, i, rfl, hdecode, hexec⟩ | ⟨w, e, -, -, rfl⟩ |
    ⟨reg, v, -, -, -, rfl⟩ | ⟨space, offset, v, -, -, -, -, rfl⟩
  · exact absurd herror hleft
  · obtain ⟨hstarts, hlegal, hcleared⟩ := exec_leaves_error herror hexec hleft
    exact ⟨i, hstarts, by rw [eq_encode_of_decode hdecode]; rfl, hlegal, hcleared⟩
  · exact absurd rfl hleft
  · rw [writeCsr_frame] at hleft
    exact absurd herror hleft
  · cases space <;> exact absurd herror hleft

/-- The parameter check does not look at the list of events. -/
theorem legalParams_loaded_pending (i : Instr) (s : State) (rest : List HostEvent) :
    LegalParams (loaded i { s with pending := rest }) ↔ LegalParams (loaded i s) := by
  unfold loaded
  split <;> rfl

/-- Settles O44, by the three things a step can be: nothing, a RESET event, a transaction. -/
theorem errorPhaseLeftOnlyByNewInvocation : Obligations.ErrorPhaseLeftOnlyByNewInvocation := by
  intro s t herror hstep hleft
  rcases step_cases s with ⟨-, hs⟩ | ⟨rest, hreset, -⟩ | ⟨x, rest, hpending, hs⟩
  · obtain rfl := Host.Outcome.next.inj (hs.symm.trans hstep)
    exact absurd herror hleft
  · exact ⟨rest, or_assoc.1 (.inl hreset)⟩
  · obtain ⟨i, hstarts, hissue, hlegal, hcleared⟩ :=
      perform_leaves_error (s := { s with pending := rest }) herror (hs.symm.trans hstep) hleft
    rw [legalParams_loaded_pending] at hlegal
    exact ⟨rest, .inr (.inr ⟨i, hstarts, hissue ▸ hpending, hlegal, hcleared⟩)⟩

/-! ## With no event pending (R224) -/

/-- Settles O8: with no event there is nothing to perform. -/
theorem idleKeepsAllState : Obligations.IdleKeepsAllState := by
  intro s hidle
  rw [step, runNext, hidle]

end Sys2Proof.Machine
end

section
/-! PROOFS. Family 70_reset_and_hazards.md: a RESET event leaves the reset values of R42, and the first
command after it meets parameters that only a wrapper loads. -/

namespace Sys2Proof.Machine

open Sys2Proof.Safety

/-! ## The RESET event (R230) -/

/-- With a RESET event the oldest event, cutting a transaction short or not, the step is the reset. -/
theorem step_of_reset {e : HostEvent} {rest : List HostEvent} {s : State}
    (hreset : e = .reset ∨ ∃ x, e = .resetDuring x) (hpending : s.pending = e :: rest) :
    step s = .next (resetEvent { s with pending := rest }) := by
  rw [step, runNext, hpending]
  rcases hreset with rfl | ⟨x, rfl⟩ <;> rfl

/-- Settles O11: the reset event's result is the reset state but for the epoch and the events to come. -/
theorem resetEventGivesResetValues : Obligations.ResetEventGivesResetValues := by
  intro s e rest hreset hpending
  refine ⟨_, step_of_reset hreset hpending, fun i _ => Lanes.byte_zero i, ?_⟩
  and_intros <;> rfl

/-! ## The first command after reset (R232) -/

/-- RATE and CAP are 0 at reset, and OUTLEN = 0 passes the check before theirs. -/
theorem checkParams_resetWith (p : Config.Params) : checkParams (State.resetWith p) = some .param :=
  (checkParams_eq_some _ _).2 ⟨Nat.not_lt_zero _, .inr (.inr rfl)⟩

/-- At reset INLEN is 0, so a loaded row is legal as soon as OUT holds its output. -/
theorem legalParams_load_resetWith {i : Instr} {w : Row} (hrow : row i = some w) {p : Config.Params}
    (hout : (w.outlen.getD 0).toNat ≤ p.outBytes) : LegalParams (w.load (State.resetWith p)) :=
  (legalParams_load_iff hrow _).2 ⟨hout, Nat.zero_le _⟩

/-- Settles O13: INIT and KECCAK raise the check's error, a wrapper's own row passes it. -/
theorem firstCommandAfterReset : Obligations.FirstCommandAfterReset := by
  intro p
  have hraise := (checkParamsDecides (State.resetWith p)).2.2
  have hcheck := checkParams_resetWith p
  refine ⟨hraise .init .param rfl hcheck, hraise .keccak .param rfl hcheck, ?_⟩
  intro i w hrow hout
  refine ⟨_, exec_row hrow _, ?_⟩
  rw [keccakSteps_of_legal (legalParams_load_resetWith hrow hout)]
  exact ⟨rfl, rfl, rfl⟩

end Sys2Proof.Machine
end
